-- ==== Sys2Proof/Word.lean ====
section
/-! DEFINITION. The one word type of the block: the byte, whose only arithmetic is exclusive-or (R12). Times, intervals, lengths and
offsets are unbounded natural numbers (R12, D2). -/

namespace Sys2Proof

/-- `u8` of R12: eight bits, unsigned, bit 0 the least significant. -/
abbrev Byte := BitVec 8

end Sys2Proof
end

