-- ==== Sys2Proof/Config.lean ====
section
/-! DEFINITION. The constants the spec fixes (R7, R8). The spec leaves no result of any operation open, so there is no free value here.
The channel configuration is data that INIT writes (R9, R21 to R26) and CAPACITY is a field of State (log entry 3), not constants. -/

namespace Sys2Proof.Config

/-- `SYNC`, the sync marker at frame offset 0 (R7). -/
abbrev sync : Byte := 0x02#8

/-- `ADDR_HI_TX`, the address-high byte the encoder writes (R7, R73). -/
abbrev addrHiTx : Byte := 0x00#8

/-- `ADDR_MIN`, the lowest legal station address (R7). -/
abbrev addrMin : Nat := 1

/-- `ADDR_MAX`, the highest legal station address (R7). -/
abbrev addrMax : Nat := 32

/-- `MAX_PAYLOAD`, the longest payload the encoder accepts (R7). -/
abbrev maxPayload : Nat := 22

/-- `HDR_LEN`, the bytes before the payload: sync, address high, address low, command (R7). -/
abbrev hdrLen : Nat := 4

/-- The reference value of `CAPACITY`, the size of a parser's buffer (R8, D7). -/
abbrev referenceCapacity : Nat := 32

/-- The size of the block-owned transmit buffer of SEND_COMMAND (R164). -/
abbrev txBufSize : Nat := 27

/-- The size of the buffer a poll frame is built into (R132, R139). -/
abbrev pollBufSize : Nat := 5

end Sys2Proof.Config
end

