-- ==== Sys2Proof/Machine/FrameTable.lean ====
section
/-! DEFINITION. The command bytes and the command length table of R76, and the operation tags of R82. -/

namespace Sys2Proof.Machine

/-- 'S' (R76; the spec's own worked example gives 0x53). -/
def cmdByteS : Byte := 0x53#8

/-- 'L' (R76; PRESUMED ASCII, G1, log entry 13). -/
def cmdByteL : Byte := 0x4C#8

/-- 'R' (R76; PRESUMED ASCII, G1, log entry 13). -/
def cmdByteR : Byte := 0x52#8

/-- 'T' (R76; PRESUMED ASCII, G1, log entry 13). -/
def cmdByteT : Byte := 0x54#8

/-- 'C' (R76; PRESUMED ASCII, G1, log entry 13). -/
def cmdByteC : Byte := 0x43#8

/-- 'Z' (R76; PRESUMED ASCII, G1, log entry 13). -/
def cmdByteZ : Byte := 0x5A#8

/-- 'D' (R76; PRESUMED ASCII, G1, log entry 13). -/
def cmdByteD : Byte := 0x44#8

/-- `LEN` of R76: the payload length a command byte selects; every byte that is not listed gives 0 (R77, D12). -/
def lenOf (cmd : Byte) : Nat :=
  if cmd = cmdByteS then 2
  else if cmd = cmdByteL then 10
  else if cmd = cmdByteR then 10
  else if cmd = cmdByteT then 22
  else if cmd = cmdByteC then 11
  else if cmd = cmdByteZ then 6
  else if cmd = cmdByteD then 2
  else 0

/-- The command byte has a row of its own in the table (R76), so it is none of CMD_OTHER's (R77). -/
def listedCmd (cmd : Byte) : Bool :=
  cmd == cmdByteS || cmd == cmdByteL || cmd == cmdByteR || cmd == cmdByteT || cmd == cmdByteC || cmd == cmdByteZ || cmd == cmdByteD

/-- Tag of INIT (R82, D24). -/
def tagInit : Byte := 0x01#8

/-- Tag of ORCH_TICK (R82). -/
def tagOrchTick : Byte := 0x02#8

/-- Tag of CH_TICK (R82). -/
def tagChTick : Byte := 0x03#8

/-- Tag of CH_RX (R82). -/
def tagChRx : Byte := 0x04#8

/-- Tag of SEND_COMMAND (R82). -/
def tagSendCommand : Byte := 0x05#8

/-- Tag of BUILD_FRAME (R82). -/
def tagBuildFrame : Byte := 0x06#8

/-- Tag of CHECKSUM (R82). -/
def tagChecksum : Byte := 0x07#8

/-- Tag of PARSER_CONSUME (R82). -/
def tagParserConsume : Byte := 0x08#8

/-- Tag of PARSER_RESET (R82). -/
def tagParserReset : Byte := 0x09#8

/-- First byte of a CMD_OTHER whose command byte is below `escapeBound` and so would read as a tag (DESIGN CHOICE, log entry 6). -/
def escapeByte : Byte := 0x00#8

/-- Command bytes below this stand behind `escapeByte` (log entry 6): 0x00 itself and the nine tags. -/
def escapeBound : Nat := 10

end Sys2Proof.Machine
end

