-- ==== Sys2Proof/Syntax.lean ====
section
/-! DEFINITION. The operations a host performs on the block and the wire frames its stations send: one constructor of `Instr` per row
of spec/opcode_table.json (R76, R77, R82). -/

namespace Sys2Proof

/-- A channel index. `c ∈ {0, 1}`; the decoder refuses any other value by name (R7, R83, R84). -/
inductive Chan where
  | ch0
  | ch1
  deriving DecidableEq, Repr

/-- `SendResult`, the environment's answer to a send (R82, R186). -/
inductive SendResult where
  | ok
  | fail
  deriving DecidableEq, Repr

/-- ChannelConfig, fixed at construction (R9, R21 to R26). -/
structure ChannelConfig where
  /-- `station_addr` (R21). -/
  stationAddr : Byte
  /-- `poll_cmd` (R22). -/
  pollCmd : Byte
  /-- `poll_interval` in ms (R23). -/
  pollInterval : Nat
  /-- `reply_timeout` in ms (R24). -/
  replyTimeout : Nat
  /-- `gap_timeout` in ms, `none` when the watchdog is absent (R10, R25). -/
  gapTimeout : Option Nat
  /-- `transport`, an opaque handle no rule reads (R26; DESIGN CHOICE, log entry 15: a number stands for it). -/
  transport : Nat
  deriving DecidableEq, Repr

/-- A wire frame as it arrives, less its sync marker and its command byte (R70): any address bytes, any checksum byte. -/
structure WireFrame where
  /-- Address-high, offset 1 (R73). -/
  addrHi : Byte
  /-- Address-low, offset 2 (R74). -/
  addrLo : Byte
  /-- The payload, offsets 4 to 3+n (R70). -/
  payload : List Byte
  /-- The checksum byte, offset 4+n (R72). -/
  checksum : Byte
  deriving DecidableEq, Repr

/-- One constructor per row of spec/opcode_table.json. -/
inductive Instr where
  /-- CMD_S: a frame with command 'S' arrives on channel `c` at time `now` (R76; log entry 5). -/
  | cmdS (c : Chan) (now : Nat) (f : WireFrame)
  /-- CMD_L (R76). -/
  | cmdL (c : Chan) (now : Nat) (f : WireFrame)
  /-- CMD_R (R76). -/
  | cmdR (c : Chan) (now : Nat) (f : WireFrame)
  /-- CMD_T (R76). -/
  | cmdT (c : Chan) (now : Nat) (f : WireFrame)
  /-- CMD_C (R76). -/
  | cmdC (c : Chan) (now : Nat) (f : WireFrame)
  /-- CMD_Z (R76). -/
  | cmdZ (c : Chan) (now : Nat) (f : WireFrame)
  /-- CMD_D (R76). -/
  | cmdD (c : Chan) (now : Nat) (f : WireFrame)
  /-- CMD_OTHER: a frame whose command byte is none of the seven (R77). -/
  | cmdOther (c : Chan) (now : Nat) (cmd : Byte) (f : WireFrame)
  /-- INIT (R160). -/
  | init (cfg0 cfg1 : ChannelConfig)
  /-- ORCH_TICK (R162). -/
  | orchTick (now : Nat) (a0 a1 : Option SendResult)
  /-- CH_TICK (R131). -/
  | chTick (c : Chan) (now : Nat) (a : Option SendResult)
  /-- CH_RX (R140). -/
  | chRx (c : Chan) (b : Byte) (now : Nat)
  /-- SEND_COMMAND (R164). -/
  | sendCommand (c : Chan) (addr : Nat) (cmd : Byte) (payload : List Byte) (a : Option SendResult)
  /-- BUILD_FRAME (R92). -/
  | buildFrame (addr : Nat) (cmd : Byte) (payload : List Byte) (outCap : Nat)
  /-- CHECKSUM (R90). -/
  | checksum (bytes : List Byte)
  /-- PARSER_CONSUME (R100). -/
  | parserConsume (c : Chan) (b : Byte)
  /-- PARSER_RESET (R111). -/
  | parserReset (c : Chan)
  deriving DecidableEq, Repr

end Sys2Proof
end

