-- ==== Sys2Proof/WellFormed.lean ====
section
/-! DEFINITION. Which instructions are well formed: a frame-command row carries the payload length its command byte selects (R76, R79),
and CMD_OTHER a command byte that has no row of its own (R77). Wrong values of addr, payload and out_cap are not ill formed: they are
defined errors of BUILD_FRAME (R84). -/

namespace Sys2Proof

/-- The frame's payload has the length `LEN(cmd)` (R76, R79). -/
def WireFrame.fits (cmd : Byte) (f : WireFrame) : Bool := f.payload.length == Machine.lenOf cmd

/-- The checks on an instruction as syntax. -/
def Instr.wellFormed : Instr → Bool
  | .cmdS _ _ f => f.fits Machine.cmdByteS
  | .cmdL _ _ f => f.fits Machine.cmdByteL
  | .cmdR _ _ f => f.fits Machine.cmdByteR
  | .cmdT _ _ f => f.fits Machine.cmdByteT
  | .cmdC _ _ f => f.fits Machine.cmdByteC
  | .cmdZ _ _ f => f.fits Machine.cmdByteZ
  | .cmdD _ _ f => f.fits Machine.cmdByteD
  | .cmdOther _ _ cmd f => !Machine.listedCmd cmd && f.fits cmd
  | .init _ _ => true
  | .orchTick _ _ _ => true
  | .chTick _ _ _ => true
  | .chRx _ _ _ => true
  | .sendCommand _ _ _ _ _ => true
  | .buildFrame _ _ _ _ => true
  | .checksum _ => true
  | .parserConsume _ _ => true
  | .parserReset _ => true

/-- `i` is a well-formed instruction. -/
abbrev Instr.WellFormed (i : Instr) : Prop := i.wellFormed = true

end Sys2Proof
end

