-- ==== Sys2Proof/Decode.lean ====
section
/-! DEFINITION. The bytes in which a host writes an operation (R82, R85), their decoder, total on any bytes and rejecting by name, and
their encoder. The spec gives the tags and the order of the operands; how each operand is written in bytes is a DESIGN CHOICE (log
entry 4), and so is the escape of CMD_OTHER (log entry 6). -/

namespace Sys2Proof

/-- Why bytes are no instruction. -/
inductive DecodeError where
  /-- The bytes end inside an instruction. -/
  | truncated
  /-- A channel operand other than 0 or 1 (R83, R84). -/
  | badChannel (b : Byte)
  /-- An answer operand that is none of absent (0), ok (1), fail (2) (log entry 4). -/
  | badAnswer (b : Byte)
  /-- A gap operand that is neither absent (0) nor present (1) (log entry 4). -/
  | badGap (b : Byte)
  /-- The escape byte stands before a command byte that does not need it (log entry 6). -/
  | badEscape (b : Byte)
  deriving DecidableEq, Repr

/-- A reader of one operand: the value and the bytes after it, or the reason there is none. -/
abbrev Reader (α : Type) := List Byte → Except DecodeError (α × List Byte)

/-- Read one operand, then go on with the bytes after it. -/
def readThen {α β : Type} (r : Reader α) (go : α → Reader β) : Reader β := fun bs =>
  match r bs with
  | .error e => .error e
  | .ok (x, rest) => go x rest

/-- Read nothing more. -/
def readDone {α : Type} (x : α) : Reader α := fun bs => .ok (x, bs)

/-- Refuse. -/
def readError {α : Type} (e : DecodeError) : Reader α := fun _ => .error e

/-- One byte. -/
def getByte : Reader Byte
  | [] => .error .truncated
  | b :: bs => .ok (b, bs)

/-- `n` bytes. -/
def getBytes : Nat → Reader (List Byte)
  | 0, bs => .ok ([], bs)
  | _ + 1, [] => .error .truncated
  | n + 1, b :: bs =>
    match getBytes n bs with
    | .error e => .error e
    | .ok (xs, rest) => .ok (b :: xs, rest)

/-- A natural number: seven bits a byte, least significant group first, bit 7 set on every byte but the last. Padding is accepted, so a
number has many spellings, 0x80 0x00 and 0x00 both reading as 0: the spec gives no bytes for it (DESIGN CHOICE, log entry 4). -/
def getNat : Reader Nat
  | [] => .error .truncated
  | b :: bs =>
    if b.toNat < 128 then .ok (b.toNat, bs)
    else
      match getNat bs with
      | .error e => .error e
      | .ok (n, rest) => .ok (b.toNat - 128 + 128 * n, rest)

/-- A channel index; any value but 0 and 1 is refused by name (R83, R84). -/
def getChan : Reader Chan
  | [] => .error .truncated
  | b :: bs =>
    if b = 0x00#8 then .ok (.ch0, bs)
    else if b = 0x01#8 then .ok (.ch1, bs)
    else .error (.badChannel b)

/-- An environment answer: 0 absent, 1 ok, 2 fail (R82; log entry 4). -/
def getAnswer : Reader (Option SendResult)
  | [] => .error .truncated
  | b :: bs =>
    if b = 0x00#8 then .ok (none, bs)
    else if b = 0x01#8 then .ok (some .ok, bs)
    else if b = 0x02#8 then .ok (some .fail, bs)
    else .error (.badAnswer b)

/-- A byte list: its length, then its bytes. -/
def getList : Reader (List Byte) :=
  readThen getNat fun n =>
  getBytes n

/-- An optional gap threshold: 0 absent, 1 and a number present (R25; log entry 4). -/
def getGap : Reader (Option Nat)
  | [] => .error .truncated
  | b :: bs =>
    if b = 0x00#8 then .ok (none, bs)
    else if b = 0x01#8 then
      match getNat bs with
      | .error e => .error e
      | .ok (n, rest) => .ok (some n, rest)
    else .error (.badGap b)

/-- A ChannelConfig, its fields in the order of R21 to R26. -/
def getConfig : Reader ChannelConfig :=
  readThen getByte fun stationAddr =>
  readThen getByte fun pollCmd =>
  readThen getNat fun pollInterval =>
  readThen getNat fun replyTimeout =>
  readThen getGap fun gapTimeout =>
  readThen getNat fun transport =>
  readDone ⟨stationAddr, pollCmd, pollInterval, replyTimeout, gapTimeout, transport⟩

/-- The rest of a wire frame after its command byte, which alone tells how many payload bytes follow (R79), and where and when it
arrives. -/
def getFrame (cmd : Byte) : Reader (Chan × Nat × WireFrame) :=
  readThen getByte fun addrHi =>
  readThen getByte fun addrLo =>
  readThen (getBytes (Machine.lenOf cmd)) fun payload =>
  readThen getByte fun checksum =>
  readThen getChan fun c =>
  readThen getNat fun now =>
  readDone (c, now, ⟨addrHi, addrLo, payload, checksum⟩)

/-- A frame-command row, by its command byte. -/
def frameInstr (cmd : Byte) (x : Chan × Nat × WireFrame) : Instr :=
  if cmd = Machine.cmdByteS then .cmdS x.1 x.2.1 x.2.2
  else if cmd = Machine.cmdByteL then .cmdL x.1 x.2.1 x.2.2
  else if cmd = Machine.cmdByteR then .cmdR x.1 x.2.1 x.2.2
  else if cmd = Machine.cmdByteT then .cmdT x.1 x.2.1 x.2.2
  else if cmd = Machine.cmdByteC then .cmdC x.1 x.2.1 x.2.2
  else if cmd = Machine.cmdByteZ then .cmdZ x.1 x.2.1 x.2.2
  else if cmd = Machine.cmdByteD then .cmdD x.1 x.2.1 x.2.2
  else .cmdOther x.1 x.2.1 cmd x.2.2

/-- A frame-command instruction whose command byte is `cmd`. -/
def decodeFrame (cmd : Byte) : Reader Instr :=
  readThen (getFrame cmd) fun x =>
  readDone (frameInstr cmd x)

/-- INIT's operands (R160). -/
def decodeInit : Reader Instr :=
  readThen getConfig fun cfg0 =>
  readThen getConfig fun cfg1 =>
  readDone (.init cfg0 cfg1)

/-- ORCH_TICK's operands (R162). -/
def decodeOrchTick : Reader Instr :=
  readThen getNat fun now =>
  readThen getAnswer fun a0 =>
  readThen getAnswer fun a1 =>
  readDone (.orchTick now a0 a1)

/-- CH_TICK's operands (R131). -/
def decodeChTick : Reader Instr :=
  readThen getChan fun c =>
  readThen getNat fun now =>
  readThen getAnswer fun a =>
  readDone (.chTick c now a)

/-- CH_RX's operands (R140). -/
def decodeChRx : Reader Instr :=
  readThen getChan fun c =>
  readThen getByte fun b =>
  readThen getNat fun now =>
  readDone (.chRx c b now)

/-- SEND_COMMAND's operands (R164). -/
def decodeSendCommand : Reader Instr :=
  readThen getChan fun c =>
  readThen getNat fun addr =>
  readThen getByte fun cmd =>
  readThen getList fun payload =>
  readThen getAnswer fun a =>
  readDone (.sendCommand c addr cmd payload a)

/-- BUILD_FRAME's operands (R92). -/
def decodeBuildFrame : Reader Instr :=
  readThen getNat fun addr =>
  readThen getByte fun cmd =>
  readThen getList fun payload =>
  readThen getNat fun outCap =>
  readDone (.buildFrame addr cmd payload outCap)

/-- CHECKSUM's operand (R90). -/
def decodeChecksum : Reader Instr :=
  readThen getList fun xs =>
  readDone (.checksum xs)

/-- PARSER_CONSUME's operands (R100). -/
def decodeParserConsume : Reader Instr :=
  readThen getChan fun c =>
  readThen getByte fun b =>
  readDone (.parserConsume c b)

/-- PARSER_RESET's operand (R111). -/
def decodeParserReset : Reader Instr :=
  readThen getChan fun c =>
  readDone (.parserReset c)

/-- CMD_OTHER behind the escape byte (log entry 6). -/
def decodeEscaped : Reader Instr :=
  readThen getByte fun cmd =>
  if cmd.toNat < Machine.escapeBound then decodeFrame cmd else readError (.badEscape cmd)

/-- The decoder: the first byte is matched against the exact rows of the opcode table, the tags of R82 and the command bytes of R76,
and else is CMD_OTHER's, which the table gives lower priority (log entry 6). -/
def decode : Reader Instr
  | [] => .error .truncated
  | b :: bs =>
    if b = Machine.tagInit then decodeInit bs
    else if b = Machine.tagOrchTick then decodeOrchTick bs
    else if b = Machine.tagChTick then decodeChTick bs
    else if b = Machine.tagChRx then decodeChRx bs
    else if b = Machine.tagSendCommand then decodeSendCommand bs
    else if b = Machine.tagBuildFrame then decodeBuildFrame bs
    else if b = Machine.tagChecksum then decodeChecksum bs
    else if b = Machine.tagParserConsume then decodeParserConsume bs
    else if b = Machine.tagParserReset then decodeParserReset bs
    else if b = Machine.escapeByte then decodeEscaped bs
    else decodeFrame b bs

/-- Seven bits a byte, least significant group first; `fuel` bounds the number of further bytes. -/
def natBytesFuel : Nat → Nat → List Byte
  | 0, n => [BitVec.ofNat 8 n]
  | fuel + 1, n =>
    if n < 128 then [BitVec.ofNat 8 n] else BitVec.ofNat 8 (128 + n % 128) :: natBytesFuel fuel (n / 128)

/-- The bytes of a natural number. -/
def natBytes (n : Nat) : List Byte := natBytesFuel n n

/-- The byte of a channel index. -/
def chanByte : Chan → Byte
  | .ch0 => 0x00#8
  | .ch1 => 0x01#8

/-- The byte of an environment answer. -/
def answerByte : Option SendResult → Byte
  | none => 0x00#8
  | some .ok => 0x01#8
  | some .fail => 0x02#8

/-- The bytes of a byte list: its length, then its bytes. -/
def listBytes (xs : List Byte) : List Byte := natBytes xs.length ++ xs

/-- The bytes of an optional gap threshold. -/
def gapBytes : Option Nat → List Byte
  | none => [0x00#8]
  | some g => 0x01#8 :: natBytes g

/-- The bytes of a ChannelConfig. -/
def configBytes (k : ChannelConfig) : List Byte :=
  [k.stationAddr, k.pollCmd] ++ natBytes k.pollInterval ++ natBytes k.replyTimeout ++ gapBytes k.gapTimeout ++ natBytes k.transport

/-- The bytes of a frame-command instruction after its command byte. -/
def frameRest (c : Chan) (now : Nat) (f : WireFrame) : List Byte :=
  [f.addrHi, f.addrLo] ++ f.payload ++ [f.checksum, chanByte c] ++ natBytes now

/-- The first bytes of a CMD_OTHER: its command byte, escaped where it would read as a tag (log entry 6). -/
def otherHead (cmd : Byte) : List Byte :=
  if cmd.toNat < Machine.escapeBound then [Machine.escapeByte, cmd] else [cmd]

/-- The encoder: tag, then operands in the order of R82. -/
def encode : Instr → List Byte
  | .cmdS c now f => Machine.cmdByteS :: frameRest c now f
  | .cmdL c now f => Machine.cmdByteL :: frameRest c now f
  | .cmdR c now f => Machine.cmdByteR :: frameRest c now f
  | .cmdT c now f => Machine.cmdByteT :: frameRest c now f
  | .cmdC c now f => Machine.cmdByteC :: frameRest c now f
  | .cmdZ c now f => Machine.cmdByteZ :: frameRest c now f
  | .cmdD c now f => Machine.cmdByteD :: frameRest c now f
  | .cmdOther c now cmd f => otherHead cmd ++ frameRest c now f
  | .init cfg0 cfg1 => Machine.tagInit :: (configBytes cfg0 ++ configBytes cfg1)
  | .orchTick now a0 a1 => Machine.tagOrchTick :: (natBytes now ++ [answerByte a0, answerByte a1])
  | .chTick c now a => [Machine.tagChTick, chanByte c] ++ natBytes now ++ [answerByte a]
  | .chRx c b now => [Machine.tagChRx, chanByte c, b] ++ natBytes now
  | .sendCommand c addr cmd payload a =>
    [Machine.tagSendCommand, chanByte c] ++ natBytes addr ++ [cmd] ++ listBytes payload ++ [answerByte a]
  | .buildFrame addr cmd payload outCap =>
    Machine.tagBuildFrame :: (natBytes addr ++ [cmd] ++ listBytes payload ++ natBytes outCap)
  | .checksum xs => Machine.tagChecksum :: listBytes xs
  | .parserConsume c b => [Machine.tagParserConsume, chanByte c, b]
  | .parserReset c => [Machine.tagParserReset, chanByte c]

/-- The bytes of a word whose bit 0 is the least significant bit of its first byte. -/
def wordBytes : Nat → Nat → List Byte
  | 0, _ => []
  | n + 1, w => BitVec.ofNat 8 w :: wordBytes n (w / 256)

/-- More zero bytes than any instruction with zero operands takes (28, CMD_T's). -/
def zeroTail : List Byte := List.replicate 32 0x00#8

/-- An opcode-table word laid out as the block's host writes it, first byte first, every later operand byte zero. -/
def tableBytes (nbits w : Nat) : List Byte := wordBytes ((nbits + 7) / 8) w ++ zeroTail

/-- The instruction the decoder reads from an opcode-table word. -/
def decodeTableWord (nbits w : Nat) : Option Instr :=
  match decode (tableBytes nbits w) with
  | .ok (i, _) => some i
  | .error _ => none

end Sys2Proof
end

