-- ==== Sys2Proof/Machine/State.lean ====
section
/-! DEFINITION. The state of the block, all of it plain data: the configuration and runtime record of each channel (R20 to R39), the
byte buffers (R50, R52, R164), the observation (R15), and the queue of operations the host has asked for. -/

namespace Sys2Proof.Machine

/-- A byte-addressed buffer space: its cells by offset, offsets strictly rising, no cell holding 0x00, which is what an unlisted offset
reads as (R46: every byte of a parser's buffer is 0x00 after INIT; log entry 9 for the buffer out). -/
abbrev Memory := List Host.Cell

/-- `PState`, what the parser reads the next byte as (R31). -/
inductive PState where
  | waitSyn
  | waitAddrHi
  | waitAddrLo
  | waitCmd
  | waitData
  | waitChecksum
  deriving DecidableEq, Repr

/-- `SchedState` (R36). -/
inductive SchedState where
  | idle
  | waitingReply
  deriving DecidableEq, Repr

/-- The Frame value of a successful parse (R78). -/
structure Frame where
  address : Byte
  command : Byte
  payload : List Byte
  deriving DecidableEq, Repr

/-- What PARSER_CONSUME returns (R41, R100). -/
inductive ParserOutcome where
  | inProgress
  | success (f : Frame)
  | checksumError
  | bufferOverflow
  deriving DecidableEq, Repr

/-- ParserState (R30). -/
structure ParserState where
  /-- `pstate` (R31). -/
  pstate : PState
  /-- `buf`, the accumulation buffer of CAPACITY bytes (R32, R50). -/
  buf : Memory
  /-- `index`, the number of bytes buffered for the current frame (R33). -/
  index : Nat
  /-- `cmd`, the command byte of the frame being assembled (R34). -/
  cmd : Byte
  /-- `expected_len`, the payload length of the frame being assembled (R35). -/
  expectedLen : Nat
  deriving DecidableEq, Repr

/-- ChannelRuntime (R29). -/
structure ChannelRuntime where
  /-- `sched_state` (R36). -/
  schedState : SchedState
  /-- `next_poll_deadline` in ms (R37). -/
  nextPollDeadline : Nat
  /-- `reply_deadline` in ms (R38). -/
  replyDeadline : Nat
  /-- `last_rx_time` in ms (R39). -/
  lastRxTime : Nat
  /-- `P[c]` (R30). -/
  parser : ParserState
  deriving DecidableEq, Repr

/-- A diagnostic event (R175). -/
inductive DiagEvent where
  | frameSent (frame : List Byte)
  | frameReceived (address command : Byte)
  | checksumError
  | replyTimeout
  | bufferOverflow
  | sendFailure (frame : List Byte)
  deriving DecidableEq, Repr

/-- Why BUILD_FRAME refuses its arguments (R93). -/
inductive ValidationReason where
  | addressOutOfRange
  | payloadTooLong
  | bufferTooSmall
  deriving DecidableEq, Repr

/-- Which constraint a configuration breaks (R160). -/
inductive ConfigReason where
  | stationAddress
  | gapNotBelowTimeout
  deriving DecidableEq, Repr

/-- What BUILD_FRAME returns (R92). -/
inductive BuildResult where
  | len (n : Nat)
  | validationError (r : ValidationReason)
  deriving DecidableEq, Repr

/-- What SEND_COMMAND returns (R164). -/
inductive SendCommandResult where
  | ok
  | validationError (r : ValidationReason)
  | transportSendFailure
  deriving DecidableEq, Repr

/-- What INIT returns (R160). -/
inductive InitResult where
  | ok
  | configRejected (k : Chan) (r : ConfigReason)
  deriving DecidableEq, Repr

/-- A value an operation returned to its caller (R82, "result"). -/
inductive Returned where
  | init (r : InitResult)
  | sendCommand (r : SendCommandResult)
  | buildFrame (r : BuildResult)
  | checksum (v : Byte)
  | parserConsume (o : ParserOutcome)
  deriving DecidableEq, Repr

/-- The error classes of R171. -/
inductive ErrorClass where
  | validationError
  | checksumMismatch
  | bufferOverflow
  | replyTimeout
  | transportSendFailure
  | configRejected
  deriving DecidableEq, Repr

/-- One send call: channel, bytes, answer (R15, R186). -/
structure SendRecord where
  chan : Chan
  bytes : List Byte
  answer : SendResult
  deriving DecidableEq, Repr

/-- One element of the Result stream, keyed by channel and by `frame.address` (R189). -/
structure ResultRecord where
  chan : Chan
  frame : Frame
  deriving DecidableEq, Repr

/-- One element of the Diag stream (R175). -/
structure DiagRecord where
  chan : Chan
  event : DiagEvent
  deriving DecidableEq, Repr

/-- The whole state. -/
structure State where
  /-- `initialized`, false until INIT (R20). -/
  initialized : Bool
  /-- `cfg[0]` (R21 to R26). -/
  cfg0 : ChannelConfig
  /-- `cfg[1]`. -/
  cfg1 : ChannelConfig
  /-- `ch[0]` (R29). -/
  ch0 : ChannelRuntime
  /-- `ch[1]`. -/
  ch1 : ChannelRuntime
  /-- `CAPACITY`, the size of each parser's buffer; nothing writes it (R8, R54; log entry 3). -/
  capacity : Nat
  /-- The caller's buffer `out` of BUILD_FRAME (R52; log entry 9). -/
  outBuf : Memory
  /-- The block-owned transmit buffer of SEND_COMMAND (R164; log entry 10). -/
  txBuf : Memory
  /-- The model's own: the bytes of the operations the host has asked for and the block has not performed yet (log entry 7). -/
  script : List Byte
  /-- The model's own: the `now` of the latest operation that has one, below which the host's duty lets no later `now` fall (R130, R212;
  log entry 12). -/
  clock : Nat
  /-- The sends so far, oldest first (R15). -/
  sends : List SendRecord
  /-- The Result stream, oldest first (R15, R189). -/
  results : List ResultRecord
  /-- The Diag stream, oldest first (R15, R175). -/
  diags : List DiagRecord
  /-- The values returned to callers, oldest first (R15, R82; log entry 8). -/
  returned : List Returned
  deriving DecidableEq, Repr

/-- Why the machine stops with a fault. The block has no traps (R170); this one is the model's, safe, and no run reaches it. -/
inductive Fault where
  /-- Raised by BufRead at an offset at or above CAPACITY, a byte the spec says does not exist (R50). Safe: R33 and R40 keep every
  reachable state from it (log entry 11). -/
  | noSuchOffset (c : Chan) (offset : Nat)
  deriving DecidableEq, Repr

/-- Why an operation has no step (R84, R161, I15). A refused operation changes nothing. -/
inductive Refusal where
  /-- Raised by no arm of this model: every instruction has its meaning. Safe. -/
  | notModelled (mnemonic : String)
  /-- Raised by step when the host has asked for no operation: the block takes no step of its own accord (R11, R28). Safe. -/
  | noOperation
  /-- Raised by step when the host's bytes are no operation; a channel other than 0 or 1 is refused here, by name (R83, R84). Safe. -/
  | notAnOperation (e : DecodeError)
  /-- Raised by every operation but INIT, CHECKSUM and BUILD_FRAME before INIT (R84, R161). Safe: the spec's own refusal. -/
  | beforeInit
  /-- Raised by INIT after INIT (R84, R160). Safe: the spec's own refusal. -/
  | alreadyInitialized
  /-- Raised by CH_TICK, ORCH_TICK and SEND_COMMAND when they make a send on this channel and no answer is given (R84). Safe: the
  spec's own refusal. -/
  | answerMissing (c : Chan)
  /-- Raised by CH_TICK, ORCH_TICK and SEND_COMMAND when an answer is given and they make no send on this channel (R84). Safe: the
  spec's own refusal. -/
  | answerUnexpected (c : Chan)
  /-- Raised by step when the next operation's `now` is earlier than that of an operation before it: the host breaks its duty, and such an
  operation has no step (R130, R212, I15; log entry 12). Safe: the spec's own refusal. -/
  | clockWentBack (clock now : Nat)
  deriving DecidableEq, Repr

/-- A parser as INIT leaves it (R46). -/
def ParserState.initial : ParserState :=
  { pstate := .waitSyn, buf := [], index := 0, cmd := 0x00#8, expectedLen := 0 }

/-- A channel's runtime record as INIT leaves it (R46). -/
def ChannelRuntime.initial : ChannelRuntime :=
  { schedState := .idle, nextPollDeadline := 0, replyDeadline := 0, lastRxTime := 0, parser := ParserState.initial }

/-- What a configuration holds before INIT, where the spec leaves it unspecified (R46; DESIGN CHOICE, log entry 2). -/
def State.noConfig : ChannelConfig :=
  { stationAddr := 0x00#8, pollCmd := 0x00#8, pollInterval := 0, replyTimeout := 0, gapTimeout := none, transport := 0 }

/-- The block after power-up, before INIT: `initialized = false` (R46, R190, R200); the other fields, which the spec leaves unspecified
there, at the values of R46 (DESIGN CHOICE, log entries 1 and 2). -/
def State.reset : State :=
  { initialized := false
    cfg0 := State.noConfig
    cfg1 := State.noConfig
    ch0 := ChannelRuntime.initial
    ch1 := ChannelRuntime.initial
    capacity := Config.referenceCapacity
    outBuf := []
    txBuf := []
    script := []
    clock := 0
    sends := []
    results := []
    diags := []
    returned := [] }

end Sys2Proof.Machine
end

