-- ==== Sys2Proof/Machine/Flags.lean ====
section
/-! DEFINITION. The block has no flags register and no condition codes (R41): its conditions are computed where they are tested. Here are
the time conditions of the scheduler and the spec's numeric codes for outcomes, states, reasons, classes and events. -/

namespace Sys2Proof.Machine

/-- In Idle, the poll is due: `now ≥ next_poll_deadline` (R37, R130, R132). -/
def pollDue (ch : ChannelRuntime) (now : Nat) : Bool := decide (ch.nextPollDeadline ≤ now)

/-- In WaitingReply, the reply window is over: `now ≥ reply_deadline` (R38, R130, R135). -/
def replyDue (ch : ChannelRuntime) (now : Nat) : Bool := decide (ch.replyDeadline ≤ now)

/-- The inter-byte gap is exceeded: the watchdog is present, at least one byte is buffered, and the gap since the last received byte is
strictly above the threshold (R136, D14, D22). -/
def gapExceeded (cfg : ChannelConfig) (ch : ChannelRuntime) (now : Nat) : Bool :=
  match cfg.gapTimeout with
  | none => false
  | some g => decide (1 ≤ ch.parser.index) && decide (g < now - ch.lastRxTime)

/-- The tick makes a send on this channel: Idle and the poll is due (R131 to R137). -/
def tickSends (ch : ChannelRuntime) (now : Nat) : Bool :=
  match ch.schedState with
  | .idle => pollDue ch now
  | .waitingReply => false

/-- Codes of the parser states (R31, D26). -/
def pstateCode : PState → Nat
  | .waitSyn => 0
  | .waitAddrHi => 1
  | .waitAddrLo => 2
  | .waitCmd => 3
  | .waitData => 4
  | .waitChecksum => 5

/-- Codes of the scheduler states (R36, D26). -/
def schedStateCode : SchedState → Nat
  | .idle => 0
  | .waitingReply => 1

/-- Codes of the parser outcomes (R41, D26). -/
def outcomeCode : ParserOutcome → Nat
  | .inProgress => 0
  | .success _ => 1
  | .checksumError => 2
  | .bufferOverflow => 3

/-- A terminal outcome: any but InProgress (R17, R100). -/
def outcomeTerminal : ParserOutcome → Bool
  | .inProgress => false
  | .success _ => true
  | .checksumError => true
  | .bufferOverflow => true

/-- Codes of the validation reasons (R93, D13). -/
def validationCode : ValidationReason → Nat
  | .addressOutOfRange => 1
  | .payloadTooLong => 2
  | .bufferTooSmall => 3

/-- Codes of the error classes (R171, D25). -/
def errorClassCode : ErrorClass → Nat
  | .validationError => 1
  | .checksumMismatch => 2
  | .bufferOverflow => 3
  | .replyTimeout => 4
  | .transportSendFailure => 5
  | .configRejected => 6

/-- Codes of the diagnostic events (R175, D16). -/
def diagCode : DiagEvent → Nat
  | .frameSent _ => 1
  | .frameReceived _ _ => 2
  | .checksumError => 3
  | .replyTimeout => 4
  | .bufferOverflow => 5
  | .sendFailure _ => 6

/-- The error class an event reports, if it reports an error (R171, R175). -/
def diagClass : DiagEvent → Option ErrorClass
  | .frameSent _ => none
  | .frameReceived _ _ => none
  | .checksumError => some .checksumMismatch
  | .replyTimeout => some .replyTimeout
  | .bufferOverflow => some .bufferOverflow
  | .sendFailure _ => some .transportSendFailure

/-- The error class a returned value reports, if it reports an error (R170, R171). -/
def returnedClass : Returned → Option ErrorClass
  | .init .ok => none
  | .init (.configRejected _ _) => some .configRejected
  | .sendCommand .ok => none
  | .sendCommand (.validationError _) => some .validationError
  | .sendCommand .transportSendFailure => some .transportSendFailure
  | .buildFrame (.len _) => none
  | .buildFrame (.validationError _) => some .validationError
  | .checksum _ => none
  | .parserConsume .inProgress => none
  | .parserConsume (.success _) => none
  | .parserConsume .checksumError => some .checksumMismatch
  | .parserConsume .bufferOverflow => some .bufferOverflow

end Sys2Proof.Machine
end

