-- ==== Sys2Proof/Machine/Ops.lean ====
section
/-! DEFINITION. The named operations over the buffers, the channels and the streams. The block has no traps, handlers or vectors (R170),
so there is no exception to take and none to return from: an error is a returned value or an event plus a reset of the state machine
that owns it, and the operations for those (PARSER_RESET, the return to Idle, emit, return) are here. -/

namespace Sys2Proof.Machine

/-- The cells stand at strictly rising offsets. -/
def Memory.sorted : Memory → Bool
  | [] => true
  | [_] => true
  | x :: y :: m => decide (x.1 < y.1) && Memory.sorted (y :: m)

/-- The canonical form: offsets strictly rising, no cell holding what an unlisted offset reads as. -/
def Memory.wf (m : Memory) : Bool := m.sorted && m.all (fun x => x.2 != 0x00#8)

/-- The byte at an offset; an unlisted offset reads 0x00 (R46, log entry 9). -/
def Memory.read : Memory → Nat → Byte
  | [], _ => 0x00#8
  | (a, v) :: m, i => if i = a then v else Memory.read m i

/-- Write one byte, keeping the canonical form: writing 0x00 removes the cell (R51, R52). -/
def Memory.write : Memory → Nat → Byte → Memory
  | [], i, v => if v = 0x00#8 then [] else [(i, v)]
  | (a, w) :: m, i, v =>
    if i < a then (if v = 0x00#8 then (a, w) :: m else (i, v) :: (a, w) :: m)
    else if i = a then (if v = 0x00#8 then m else (i, v) :: m)
    else (a, w) :: Memory.write m i v

/-- `MemWrite(out, i, 1, v)` for each byte of a list, at rising offsets from `i` (R92). -/
def Memory.writeBytes : Memory → Nat → List Byte → Memory
  | m, _, [] => m
  | m, i, v :: vs => Memory.writeBytes (m.write i v) (i + 1) vs

/-- The `n` bytes from offset `i`. -/
def Memory.readBytes (m : Memory) : Nat → Nat → List Byte
  | _, 0 => []
  | i, n + 1 => m.read i :: Memory.readBytes m (i + 1) n

/-- `cfg[c]`. -/
def State.cfg (s : State) : Chan → ChannelConfig
  | .ch0 => s.cfg0
  | .ch1 => s.cfg1

/-- `ch[c]`. -/
def State.ch (s : State) : Chan → ChannelRuntime
  | .ch0 => s.ch0
  | .ch1 => s.ch1

/-- `ch[c] <- r`. -/
def State.setCh (s : State) (c : Chan) (r : ChannelRuntime) : State :=
  match c with
  | .ch0 => { s with ch0 := r }
  | .ch1 => { s with ch1 := r }

/-- `P[c] <- p`. -/
def State.setParser (s : State) (c : Chan) (p : ParserState) : State := s.setCh c { s.ch c with parser := p }

/-- `emit Result(c, f)` (R13, R189). -/
def State.emitResult (s : State) (c : Chan) (f : Frame) : State := { s with results := s.results ++ [⟨c, f⟩] }

/-- `emit Diag(c, ev)` (R13, R175). -/
def State.emitDiag (s : State) (c : Chan) (ev : DiagEvent) : State := { s with diags := s.diags ++ [⟨c, ev⟩] }

/-- `send(c, bytes)` with the environment's answer (R13, R186). -/
def State.recordSend (s : State) (c : Chan) (bytes : List Byte) (a : SendResult) : State :=
  { s with sends := s.sends ++ [⟨c, bytes, a⟩] }

/-- `return v` to the caller (R13, R82; log entry 8). -/
def State.ret (s : State) (v : Returned) : State := { s with returned := s.returned ++ [v] }

/-- The transition into Idle that ends a reply window: `next_poll_deadline <- now + poll_interval`, `sched_state <- Idle` (R135, R143,
R144, R145). -/
def State.toIdle (s : State) (c : Chan) (now : Nat) : State :=
  s.setCh c { s.ch c with schedState := .idle, nextPollDeadline := now + (s.cfg c).pollInterval }

/-- PARSER_RESET: `pstate <- WaitSyn`, `index <- 0`; `cmd`, `expected_len` and `buf` keep their values (R111, D10). -/
def resetParser (p : ParserState) : ParserState := { p with pstate := .waitSyn, index := 0 }

/-- BufPush, the guarded buffer write: none is Overflow, before any write (R110). -/
def bufPush (cap : Nat) (p : ParserState) (b : Byte) : Option ParserState :=
  if cap ≤ p.index then none else some { p with buf := p.buf.write p.index b, index := p.index + 1 }

/-- `BufRead(c, i)`; an offset at or above CAPACITY does not exist (R50; log entry 11). -/
def bufRead (c : Chan) (cap : Nat) (p : ParserState) (i : Nat) : Except Fault Byte :=
  if i < cap then .ok (p.buf.read i) else .error (.noSuchOffset c i)

/-- `BufRead` at `n` rising offsets from `i`. -/
def bufReads (c : Chan) (cap : Nat) (p : ParserState) : Nat → Nat → Except Fault (List Byte)
  | _, 0 => .ok []
  | i, n + 1 =>
    match bufRead c cap p i with
    | .error e => .error e
    | .ok b =>
      match bufReads c cap p (i + 1) n with
      | .error e => .error e
      | .ok bs => .ok (b :: bs)

/-- Admission: every operation but INIT, CHECKSUM and BUILD_FRAME is refused before INIT, with no step (R84, R161). -/
def admitted (s : State) (o : Host.Outcome State Fault Refusal) : Host.Outcome State Fault Refusal :=
  if s.initialized then o else .refused .beforeInit

/-- An operation that can be refused and cannot fault. -/
def ofRefusal : Except Refusal State → Host.Outcome State Fault Refusal
  | .ok s => .next s
  | .error r => .refused r

/-- An operation that can fault and cannot be refused. -/
def ofFault : Except Fault State → Host.Outcome State Fault Refusal
  | .ok s => .next s
  | .error f => .fault f

/-- The clock value the host passes with an operation, if it passes one (R82, R85, R130). -/
def nowOf : Instr → Option Nat
  | .cmdS _ now _ => some now
  | .cmdL _ now _ => some now
  | .cmdR _ now _ => some now
  | .cmdT _ now _ => some now
  | .cmdC _ now _ => some now
  | .cmdZ _ now _ => some now
  | .cmdD _ now _ => some now
  | .cmdOther _ now _ _ => some now
  | .init _ _ => none
  | .orchTick now _ _ => some now
  | .chTick _ now _ => some now
  | .chRx _ _ now => some now
  | .sendCommand _ _ _ _ _ => none
  | .buildFrame _ _ _ _ => none
  | .checksum _ => none
  | .parserConsume _ _ => none
  | .parserReset _ => none

/-- The clock once the host has asked for `i`: a `now` below the latest one is refused, as the run is outside the model (R130, R212, I15).
The check is on the host and stands here, not in the operations, since the block makes none (D2; log entry 12). -/
def clockAfter (clock : Nat) (i : Instr) : Except Refusal Nat :=
  match nowOf i with
  | none => .ok clock
  | some now => if now < clock then .error (.clockWentBack clock now) else .ok now

/-- The host's next operation and the state past its bytes, at its time (log entries 7 and 12). -/
def fetch (s : State) : Except Refusal (Instr × State) :=
  match s.script with
  | [] => .error .noOperation
  | _ :: _ =>
    match decode s.script with
    | .error e => .error (.notAnOperation e)
    | .ok (i, rest) =>
      match clockAfter s.clock i with
      | .error r => .error r
      | .ok now => .ok (i, { s with script := rest, clock := now })

/-- `s` with an opcode-table word, whose operand `now` is 0, as the host's next operation: the script holds it, and the clock is 0 so that
this `now` does not go back (log entry 7). -/
def placeWord (s : State) (nbits w : Nat) : State := { s with script := tableBytes nbits w, clock := 0 }

end Sys2Proof.Machine
end

