-- ==== Sys2Proof/Machine/Operands.lean ====
section
/-! DEFINITION. The operand forms of R83 (station address, payload, answer, configuration) and the frames built from them. -/

namespace Sys2Proof.Machine

/-- CHECKSUM: the exclusive-or of the bytes, from 0x00 (R90). -/
def checksumOf (bytes : List Byte) : Byte := bytes.foldl (fun acc b => acc ^^^ b) 0x00#8

/-- The station address is legal: 1 to 32 (R7, R21, R92). -/
def addressLegal (addr : Nat) : Bool := decide (Config.addrMin ≤ addr) && decide (addr ≤ Config.addrMax)

/-- BUILD_FRAME's checks, in order: address, payload length, capacity; the first that fails gives the reason (R92, R93, R176, D13). -/
def validate (addr : Nat) (n outCap : Nat) : Option ValidationReason :=
  if addressLegal addr = false then some .addressOutOfRange
  else if Config.maxPayload < n then some .payloadTooLong
  else if outCap < 5 + n then some .bufferTooSmall
  else none

/-- The bytes at offsets 1 to 3+n: address high, address low (`addr[7:0]`), command, payload (R70, R92, R95). -/
def frameBody (addr : Nat) (cmd : Byte) (payload : List Byte) : List Byte :=
  [Config.addrHiTx, BitVec.ofNat 8 addr, cmd] ++ payload

/-- The frame BUILD_FRAME writes: sync, body, checksum of the body (R70, R72, R92, R95). -/
def frameBytes (addr : Nat) (cmd : Byte) (payload : List Byte) : List Byte :=
  [Config.sync] ++ frameBody addr cmd payload ++ [checksumOf (frameBody addr cmd payload)]

/-- BUILD_FRAME into a caller's buffer: the result and the buffer after it, unchanged on failure (R52, R92, C8). -/
def buildInto (addr : Nat) (cmd : Byte) (payload : List Byte) (outCap : Nat) (out : Memory) : BuildResult × Memory :=
  match validate addr payload.length outCap with
  | some r => (.validationError r, out)
  | none => (.len (5 + payload.length), out.writeBytes 0 (frameBytes addr cmd payload))

/-- The poll frame of a channel: BUILD_FRAME's bytes for its station and its poll command, with no payload (R81, R132, R139; log
entry 16 for a configuration no INIT admits). -/
def pollFrame (cfg : ChannelConfig) : List Byte := frameBytes cfg.stationAddr.toNat cfg.pollCmd []

/-- The bytes of a wire frame as they arrive: sync, address high, address low, command, payload, checksum (R70). -/
def wireBytes (cmd : Byte) (f : WireFrame) : List Byte :=
  [Config.sync, f.addrHi, f.addrLo, cmd] ++ f.payload ++ [f.checksum]

/-- What INIT finds wrong with a configuration: the address first, then the gap threshold (R21, R25, R160). -/
def configFault (cfg : ChannelConfig) : Option ConfigReason :=
  if addressLegal cfg.stationAddr.toNat = false then some .stationAddress
  else
    match cfg.gapTimeout with
    | none => none
    | some g => if cfg.replyTimeout ≤ g then some .gapNotBelowTimeout else none

/-- The configuration INIT rejects, channel 0 checked first (R160). -/
def initFault (cfg0 cfg1 : ChannelConfig) : Option (Chan × ConfigReason) :=
  match configFault cfg0 with
  | some r => some (.ch0, r)
  | none =>
    match configFault cfg1 with
    | some r => some (.ch1, r)
    | none => none

end Sys2Proof.Machine
end

