-- ==== Sys2Proof/Machine/Codec.lean ====
section
/-! DEFINITION. FrameCodec: CHECKSUM and BUILD_FRAME, pure but for the caller's buffer, admitted before INIT (R45, R90, R92, R161). -/

namespace Sys2Proof.Machine

/-- CHECKSUM (R90). -/
def execChecksum (bytes : List Byte) (s : State) : Host.Outcome State Fault Refusal :=
  .next (s.ret (.checksum (checksumOf bytes)))

/-- BUILD_FRAME (R92, R93, R95). -/
def execBuildFrame (addr : Nat) (cmd : Byte) (payload : List Byte) (outCap : Nat) (s : State) : Host.Outcome State Fault Refusal :=
  .next ({ s with outBuf := (buildInto addr cmd payload outCap s.outBuf).2 }.ret
    (.buildFrame (buildInto addr cmd payload outCap s.outBuf).1))

end Sys2Proof.Machine
end

