-- ==== Sys2Proof/Machine/Parser.lean ====
section
/-! DEFINITION. FrameParser: PARSER_CONSUME, one definition per parser state, and PARSER_RESET (R100 to R111). -/

namespace Sys2Proof.Machine

/-- Push the byte; on overflow reset and report it, else go on from the pushed parser with InProgress (R101 to R105, R110). -/
def pushThen (cap : Nat) (p : ParserState) (b : Byte) (go : ParserState → ParserState) : ParserOutcome × ParserState :=
  match bufPush cap p b with
  | none => (.bufferOverflow, resetParser p)
  | some p' => (.inProgress, go p')

/-- WaitSyn: a byte other than the sync marker is discarded (R101). -/
def consumeWaitSyn (cap : Nat) (p : ParserState) (b : Byte) : ParserOutcome × ParserState :=
  if b = Config.sync then pushThen cap p b (fun q => { q with pstate := .waitAddrHi }) else (.inProgress, p)

/-- WaitAddrHi: the byte is buffered unconditionally (R102). -/
def consumeWaitAddrHi (cap : Nat) (p : ParserState) (b : Byte) : ParserOutcome × ParserState :=
  pushThen cap p b (fun q => { q with pstate := .waitAddrLo })

/-- WaitAddrLo: the byte is buffered unconditionally (R103). -/
def consumeWaitAddrLo (cap : Nat) (p : ParserState) (b : Byte) : ParserOutcome × ParserState :=
  pushThen cap p b (fun q => { q with pstate := .waitCmd })

/-- WaitCmd: record the command byte and its payload length, go to WaitData or straight to WaitChecksum (R104). -/
def consumeWaitCmd (cap : Nat) (p : ParserState) (b : Byte) : ParserOutcome × ParserState :=
  pushThen cap p b (fun q =>
    { q with cmd := b, expectedLen := lenOf b, pstate := if 0 < lenOf b then .waitData else .waitChecksum })

/-- WaitData: payload until `4 + expected_len` bytes are buffered (R105). -/
def consumeWaitData (cap : Nat) (p : ParserState) (b : Byte) : ParserOutcome × ParserState :=
  pushThen cap p b (fun q => if q.index = 4 + q.expectedLen then { q with pstate := .waitChecksum } else q)

/-- The Frame of a matching checksum: raw address-low byte, recorded command, buffered payload (R106). -/
def parsedFrame (c : Chan) (cap : Nat) (p : ParserState) : Except Fault Frame :=
  match bufRead c cap p 2 with
  | .error e => .error e
  | .ok addr =>
    match bufReads c cap p 4 (p.index - 4) with
    | .error e => .error e
    | .ok payload => .ok ⟨addr, p.cmd, payload⟩

/-- WaitChecksum: compare the byte with the checksum of the buffered bytes but the sync marker; it is not buffered (R106 to R109). -/
def consumeWaitChecksum (c : Chan) (cap : Nat) (p : ParserState) (b : Byte) : Except Fault (ParserOutcome × ParserState) :=
  match bufReads c cap p 1 (p.index - 1) with
  | .error e => .error e
  | .ok body =>
    if b = checksumOf body then
      match parsedFrame c cap p with
      | .error e => .error e
      | .ok f => .ok (.success f, resetParser p)
    else .ok (.checksumError, resetParser p)

/-- PARSER_CONSUME: the one rule of R101 to R107 that matches `pstate` (R100). -/
def consume (c : Chan) (cap : Nat) (p : ParserState) (b : Byte) : Except Fault (ParserOutcome × ParserState) :=
  match p.pstate with
  | .waitSyn => .ok (consumeWaitSyn cap p b)
  | .waitAddrHi => .ok (consumeWaitAddrHi cap p b)
  | .waitAddrLo => .ok (consumeWaitAddrLo cap p b)
  | .waitCmd => .ok (consumeWaitCmd cap p b)
  | .waitData => .ok (consumeWaitData cap p b)
  | .waitChecksum => consumeWaitChecksum c cap p b

/-- PARSER_CONSUME as an operation: the parser's new state and the outcome returned (R82, R100). An internal step, which the host reaches
through CH_RX only; the model exposes it for testing, as R82 allows (DESIGN CHOICE, log entry 21). -/
def execParserConsume (c : Chan) (b : Byte) (s : State) : Host.Outcome State Fault Refusal :=
  admitted s
    (match consume c s.capacity (s.ch c).parser b with
    | .error e => .fault e
    | .ok (o, p) => .next ((s.setParser c p).ret (.parserConsume o)))

/-- PARSER_RESET as an operation (R82, R111). An internal step: R201's host has no partial reset, so a script that holds it is a test run,
as R82 allows, and no run of the host's (DESIGN CHOICE, log entry 21). -/
def execParserReset (c : Chan) (s : State) : Host.Outcome State Fault Refusal :=
  admitted s (.next (s.setParser c (resetParser (s.ch c).parser)))

end Sys2Proof.Machine
end

