-- ==== Sys2Proof/Machine/Scheduler.lean ====
section
/-! DEFINITION. ChannelScheduler: CH_TICK (R131 to R137) and CH_RX (R140 to R146). -/

namespace Sys2Proof.Machine

/-- Idle, poll due, send succeeds: send the poll frame, reset the parser, set the reply deadline, enter WaitingReply (R132). -/
def pollSent (c : Chan) (now : Nat) (s : State) : State :=
  let ch := s.ch c
  let s := s.recordSend c (pollFrame (s.cfg c)) .ok
  let s := s.setCh c { ch with
    schedState := .waitingReply
    replyDeadline := now + (s.cfg c).replyTimeout
    parser := resetParser ch.parser }
  s.emitDiag c (.frameSent (pollFrame (s.cfg c)))

/-- Idle, poll due, send fails: stay Idle, next attempt one interval later; the parser is not reset (R133, D29). -/
def pollFailed (c : Chan) (now : Nat) (s : State) : State :=
  let ch := s.ch c
  let s := s.recordSend c (pollFrame (s.cfg c)) .fail
  let s := s.setCh c { ch with nextPollDeadline := now + (s.cfg c).pollInterval }
  s.emitDiag c (.sendFailure (pollFrame (s.cfg c)))

/-- WaitingReply, reply deadline due: report the timeout, drop the partial frame, return to Idle (R135). -/
def replyTimedOut (c : Chan) (now : Nat) (s : State) : State :=
  let s := s.emitDiag c .replyTimeout
  let s := s.setParser c (resetParser (s.ch c).parser)
  s.toIdle c now

/-- WaitingReply, inter-byte gap exceeded: reset the parser only, no event (R136, D16). -/
def gapReset (c : Chan) (s : State) : State := s.setParser c (resetParser (s.ch c).parser)

/-- CH_TICK in WaitingReply: the reply deadline first, then the gap, else nothing (R135, R136, R137, R176). -/
def tickWaiting (c : Chan) (now : Nat) (s : State) : State :=
  if replyDue (s.ch c) now then replyTimedOut c now s
  else if gapExceeded (s.cfg c) (s.ch c) now then gapReset c s
  else s

/-- CH_TICK on an admitted channel: exactly one of R132 to R137, the answer present exactly when a send is made (R84, R131). -/
def tick (c : Chan) (now : Nat) (a : Option SendResult) (s : State) : Except Refusal State :=
  if tickSends (s.ch c) now then
    match a with
    | none => .error (.answerMissing c)
    | some .ok => .ok (pollSent c now s)
    | some .fail => .ok (pollFailed c now s)
  else
    match a with
    | some _ => .error (.answerUnexpected c)
    | none =>
      match (s.ch c).schedState with
      | .idle => .ok s
      | .waitingReply => .ok (tickWaiting c now s)

/-- What the scheduler does with a parser outcome (R142 to R145). -/
def onOutcome (c : Chan) (now : Nat) (o : ParserOutcome) (s : State) : State :=
  match o with
  | .inProgress => s
  | .success f => ((s.emitResult c f).emitDiag c (.frameReceived f.address f.command)).toIdle c now
  | .checksumError => (s.emitDiag c .checksumError).toIdle c now
  | .bufferOverflow => (s.emitDiag c .bufferOverflow).toIdle c now

/-- CH_RX on an admitted channel: discarded in Idle, else forwarded to the parser whatever `now` is, and the outcome consumed at once
(R140, R141, R146, D34). -/
def rxByte (c : Chan) (b : Byte) (now : Nat) (s : State) : Except Fault State :=
  match (s.ch c).schedState with
  | .idle => .ok s
  | .waitingReply =>
    match consume c s.capacity (s.ch c).parser b with
    | .error e => .error e
    | .ok (o, p) => .ok (onOutcome c now o (s.setCh c { s.ch c with lastRxTime := now, parser := p }))

/-- An RX line: one CH_RX per byte, left to right, all at one time (R85). -/
def rxBytes (c : Chan) (now : Nat) : List Byte → State → Except Fault State
  | [], s => .ok s
  | b :: bs, s =>
    match rxByte c b now s with
    | .error e => .error e
    | .ok s' => rxBytes c now bs s'

/-- CH_TICK (R131). An internal step, which the host reaches through ORCH_TICK only; the model exposes it for testing, as R82 allows
(DESIGN CHOICE, log entry 21). -/
def execChTick (c : Chan) (now : Nat) (a : Option SendResult) (s : State) : Host.Outcome State Fault Refusal :=
  admitted s (ofRefusal (tick c now a s))

/-- CH_RX (R140). -/
def execChRx (c : Chan) (b : Byte) (now : Nat) (s : State) : Host.Outcome State Fault Refusal :=
  admitted s (ofFault (rxByte c b now s))

end Sys2Proof.Machine
end

