-- ==== Sys2Proof/Machine/FrameCmd.lean ====
section
/-! DEFINITION. The frame-command rows of the opcode table (R76, R77): the wire frame with that command byte arrives on a channel, one
CH_RX per byte (R70, R79, R85; DESIGN CHOICE, log entry 5). Its command byte selects the payload length in the parser (R104). -/

namespace Sys2Proof.Machine

/-- A wire frame arrives: its bytes, in order, at one time (R55, R85). -/
def rxFrame (cmd : Byte) (c : Chan) (now : Nat) (f : WireFrame) (s : State) : Host.Outcome State Fault Refusal :=
  admitted s (ofFault (rxBytes c now (wireBytes cmd f) s))

/-- CMD_S, payload of 2 bytes (R76). -/
def execCmdS (c : Chan) (now : Nat) (f : WireFrame) (s : State) : Host.Outcome State Fault Refusal := rxFrame cmdByteS c now f s

/-- CMD_L, payload of 10 bytes (R76). -/
def execCmdL (c : Chan) (now : Nat) (f : WireFrame) (s : State) : Host.Outcome State Fault Refusal := rxFrame cmdByteL c now f s

/-- CMD_R, payload of 10 bytes (R76). -/
def execCmdR (c : Chan) (now : Nat) (f : WireFrame) (s : State) : Host.Outcome State Fault Refusal := rxFrame cmdByteR c now f s

/-- CMD_T, payload of 22 bytes (R76). -/
def execCmdT (c : Chan) (now : Nat) (f : WireFrame) (s : State) : Host.Outcome State Fault Refusal := rxFrame cmdByteT c now f s

/-- CMD_C, payload of 11 bytes (R76). -/
def execCmdC (c : Chan) (now : Nat) (f : WireFrame) (s : State) : Host.Outcome State Fault Refusal := rxFrame cmdByteC c now f s

/-- CMD_Z, payload of 6 bytes (R76). -/
def execCmdZ (c : Chan) (now : Nat) (f : WireFrame) (s : State) : Host.Outcome State Fault Refusal := rxFrame cmdByteZ c now f s

/-- CMD_D, payload of 2 bytes (R76). -/
def execCmdD (c : Chan) (now : Nat) (f : WireFrame) (s : State) : Host.Outcome State Fault Refusal := rxFrame cmdByteD c now f s

/-- CMD_OTHER, no payload (R77). -/
def execCmdOther (c : Chan) (now : Nat) (cmd : Byte) (f : WireFrame) (s : State) : Host.Outcome State Fault Refusal :=
  rxFrame cmd c now f s

end Sys2Proof.Machine
end

