-- ==== Sys2Proof/Machine/Orchestrator.lean ====
section
/-! DEFINITION. Orchestrator: INIT (R160), ORCH_TICK (R162), SEND_COMMAND (R164). -/

namespace Sys2Proof.Machine

/-- What a successful INIT writes: both configurations, both runtime records at R46's values, `initialized` (R160). -/
def initState (cfg0 cfg1 : ChannelConfig) (s : State) : State :=
  { s with
    initialized := true
    cfg0 := cfg0
    cfg1 := cfg1
    ch0 := ChannelRuntime.initial
    ch1 := ChannelRuntime.initial }

/-- INIT: refused when already initialized; a rejected configuration writes nothing and leaves the block uninitialized (R84, R160). -/
def execInit (cfg0 cfg1 : ChannelConfig) (s : State) : Host.Outcome State Fault Refusal :=
  if s.initialized then .refused .alreadyInitialized
  else
    match initFault cfg0 cfg1 with
    | some (k, r) => .next (s.ret (.init (.configRejected k r)))
    | none => .next ((initState cfg0 cfg1 s).ret (.init .ok))

/-- ORCH_TICK on an admitted block: channel 0, then channel 1, with one `now`; a refusal changes nothing (R84, R162, R163). -/
def tickBoth (now : Nat) (a0 a1 : Option SendResult) (s : State) : Except Refusal State :=
  match tick .ch0 now a0 s with
  | .error r => .error r
  | .ok s' => tick .ch1 now a1 s'

/-- ORCH_TICK (R162). -/
def execOrchTick (now : Nat) (a0 a1 : Option SendResult) (s : State) : Host.Outcome State Fault Refusal :=
  admitted s (ofRefusal (tickBoth now a0 a1 s))

/-- The frame has been built and handed to the sink: record the attempt, emit, return (R164). -/
def commandSent (c : Chan) (frame : List Byte) (a : SendResult) (s : State) : State :=
  let s := s.recordSend c frame a
  match a with
  | .ok => (s.emitDiag c (.frameSent frame)).ret (.sendCommand .ok)
  | .fail => (s.emitDiag c (.sendFailure frame)).ret (.sendCommand .transportSendFailure)

/-- SEND_COMMAND on an admitted block: build into the transmit buffer; a validation error makes no send and emits nothing (R164). -/
def send (c : Chan) (addr : Nat) (cmd : Byte) (payload : List Byte) (a : Option SendResult) (s : State) : Except Refusal State :=
  match validate addr payload.length Config.txBufSize, a with
  | some r, none => .ok (s.ret (.sendCommand (.validationError r)))
  | some _, some _ => .error (.answerUnexpected c)
  | none, none => .error (.answerMissing c)
  | none, some x =>
    .ok (commandSent c (frameBytes addr cmd payload) x
      { s with txBuf := (buildInto addr cmd payload Config.txBufSize s.txBuf).2 })

/-- SEND_COMMAND (R164). -/
def execSendCommand (c : Chan) (addr : Nat) (cmd : Byte) (payload : List Byte) (a : Option SendResult) (s : State) :
    Host.Outcome State Fault Refusal :=
  admitted s (ofRefusal (send c addr cmd payload a s))

end Sys2Proof.Machine
end

