-- ==== Sys2Proof/Machine/Dispatch.lean ====
section
/-! DEFINITION. One arm per row of spec/opcode_table.json. -/

namespace Sys2Proof.Machine

/-- The meaning of an operation. -/
def exec (i : Instr) (s : State) : Host.Outcome State Fault Refusal :=
  match i with
  | .cmdS c now f => Sys2Proof.Machine.execCmdS c now f s
  | .cmdL c now f => Sys2Proof.Machine.execCmdL c now f s
  | .cmdR c now f => Sys2Proof.Machine.execCmdR c now f s
  | .cmdT c now f => Sys2Proof.Machine.execCmdT c now f s
  | .cmdC c now f => Sys2Proof.Machine.execCmdC c now f s
  | .cmdZ c now f => Sys2Proof.Machine.execCmdZ c now f s
  | .cmdD c now f => Sys2Proof.Machine.execCmdD c now f s
  | .cmdOther c now cmd f => Sys2Proof.Machine.execCmdOther c now cmd f s
  | .init cfg0 cfg1 => Sys2Proof.Machine.execInit cfg0 cfg1 s
  | .orchTick now a0 a1 => Sys2Proof.Machine.execOrchTick now a0 a1 s
  | .chTick c now a => Sys2Proof.Machine.execChTick c now a s
  | .chRx c b now => Sys2Proof.Machine.execChRx c b now s
  | .sendCommand c addr cmd payload a => Sys2Proof.Machine.execSendCommand c addr cmd payload a s
  | .buildFrame addr cmd payload outCap => Sys2Proof.Machine.execBuildFrame addr cmd payload outCap s
  | .checksum bytes => Sys2Proof.Machine.execChecksum bytes s
  | .parserConsume c b => Sys2Proof.Machine.execParserConsume c b s
  | .parserReset c => Sys2Proof.Machine.execParserReset c s

end Sys2Proof.Machine
end

