-- ==== Sys2Proof/Machine/Step.lean ====
section
/-! DEFINITION. One step: the host's next operation is decoded, its bytes are dropped, and it is performed as one atomic operation (R14,
R60, R63; log entry 7); an operation with an earlier `now` than one before it has no step (R212, I15; log entry 12). -/

namespace Sys2Proof.Machine

/-- One step of the machine. -/
def step (s : State) : Host.Outcome State Fault Refusal :=
  match fetch s with
  | .error r => .refused r
  | .ok (i, s') => exec i s'

/-- `s` with the operation of an opcode-table word as the one step performs next (log entry 7). -/
def State.withFetchWord (s : State) (nbits w : Nat) : State := placeWord s nbits w

end Sys2Proof.Machine
end

