-- ==== Sys2Proof/Safety.lean ====
section
/-! DEFINITION. What a good state is, in the terms claims use: the parser's table of R40 with the buffer facts of R32 to R35 and R50, the
configuration constraints INIT checks (R21, R25), and the canonical form of every buffer. -/

namespace Sys2Proof.Machine

/-- R40's table: `index` is fixed by `pstate`. -/
def ParserState.indexFits (p : ParserState) : Prop :=
  match p.pstate with
  | .waitSyn => p.index = 0
  | .waitAddrHi => p.index = 1
  | .waitAddrLo => p.index = 2
  | .waitCmd => p.index = 3
  | .waitData => 4 ≤ p.index ∧ p.index < 4 + p.expectedLen
  | .waitChecksum => p.index = 4 + p.expectedLen

/-- The parser is reading the frame's payload or its checksum. -/
def ParserState.pastCmd (p : ParserState) : Prop := p.pstate = .waitData ∨ p.pstate = .waitChecksum

/-- Every cell of a buffer stands below its size. -/
def Memory.within (m : Memory) (size : Nat) : Prop := ∀ x ∈ m, x.1 < size

/-- What holds of a parser in every reachable state (R32 to R35, R40, R50). -/
structure ParserState.Inv (cap : Nat) (p : ParserState) : Prop where
  /-- The buffer is in canonical form. -/
  bufWf : p.buf.wf = true
  /-- The buffer has CAPACITY bytes (R32, R50). -/
  bufWithin : p.buf.within cap
  /-- `0 ≤ index ≤ CAPACITY` (R30, R33). -/
  indexCap : p.index ≤ cap
  /-- `0 ≤ expected_len ≤ 22` (R30, R35). -/
  lenMax : p.expectedLen ≤ 22
  /-- R40's table. -/
  indexFits : p.indexFits
  /-- `buf[0] = 0x02` whenever `pstate ≠ WaitSyn` (R40). -/
  syncFirst : p.pstate ≠ .waitSyn → p.buf.read 0 = Config.sync
  /-- `cmd` is `buf[3]` and `expected_len` is `LEN(cmd)` once the command byte is read (R34, R35). -/
  cmdKept : p.pastCmd → p.buf.read 3 = p.cmd ∧ p.expectedLen = lenOf p.cmd

/-- What holds in every reachable state. -/
structure State.Inv (s : State) : Prop where
  parser : ∀ c, (s.ch c).parser.Inv s.capacity
  outWf : s.outBuf.wf = true
  txWf : s.txBuf.wf = true
  /-- The transmit buffer has 27 bytes (R164). -/
  txWithin : s.txBuf.within Config.txBufSize
  /-- After INIT every configuration meets the constraints INIT checks (R21, R25, R160). -/
  config : s.initialized = true → ∀ c, configFault (s.cfg c) = none

/-- The state an outcome leads to, if it is a next state. -/
def after (o : Host.Outcome State Fault Refusal) : Option State :=
  match o with
  | .next s => some s
  | .fault _ => none
  | .refused _ => none

/-- The refusal an outcome names, if it is one. -/
def refusal (o : Host.Outcome State Fault Refusal) : Option Refusal :=
  match o with
  | .next _ => none
  | .fault _ => none
  | .refused r => some r

/-- The fault an outcome names, if it is one. -/
def faultOf (o : Host.Outcome State Fault Refusal) : Option Fault :=
  match o with
  | .next _ => none
  | .fault f => some f
  | .refused _ => none

/-- A run is safe at a step that does not fault (R173). -/
def Safe (s : State) : Prop := faultOf (step s) = none

end Sys2Proof.Machine
end

