-- ==== Sys2Proof/Certificates/Slice0/Obligations.lean ====
section
/-! DEFINITION. The statements for the provers, one definition each, and the words of the spec they are written in: the table of R76, the
checksum of R72, the frame of R70 and the scheduler's rules, written out again from the spec and not taken from the model. -/

open Sys2Proof Sys2Proof.Machine

namespace Sys2Proof.Spec

/-- The command length table of R76. -/
def tableLen (cmd : Byte) : Nat :=
  match cmd.toNat with
  | 0x53 => 2
  | 0x4C => 10
  | 0x52 => 10
  | 0x54 => 22
  | 0x43 => 11
  | 0x5A => 6
  | 0x44 => 2
  | _ => 0

/-- The row of the opcode table a received frame with this command byte belongs to (R76, R77). -/
def frameRow (cmd : Byte) (c : Chan) (now : Nat) (f : WireFrame) : Instr :=
  match cmd.toNat with
  | 0x53 => .cmdS c now f
  | 0x4C => .cmdL c now f
  | 0x52 => .cmdR c now f
  | 0x54 => .cmdT c now f
  | 0x43 => .cmdC c now f
  | 0x5A => .cmdZ c now f
  | 0x44 => .cmdD c now f
  | _ => .cmdOther c now cmd f

/-- The exclusive-or of bytes (R72, R90). -/
def xorAll : List Byte → Byte
  | [] => 0x00#8
  | b :: bs => b ^^^ xorAll bs

/-- The frame of R70 as the block builds it. -/
def frame (addr : Nat) (cmd : Byte) (payload : List Byte) : List Byte :=
  [0x02#8, 0x00#8, BitVec.ofNat 8 addr, cmd] ++ payload ++ [xorAll ([0x00#8, BitVec.ofNat 8 addr, cmd] ++ payload)]

/-- The poll frame of R81. -/
def poll (k : ChannelConfig) : List Byte :=
  [0x02#8, 0x00#8, k.stationAddr, k.pollCmd, 0x00#8 ^^^ k.stationAddr ^^^ k.pollCmd]

/-- `[BufRead(c, i) for i in lo .. hi-1]` (R106). -/
def bufBytes (m : Memory) (lo hi : Nat) : List Byte := (List.range' lo (hi - lo)).map m.read

/-- The Frame of a parser in WaitChecksum (R106). -/
def parsed (p : ParserState) : Frame := ⟨p.buf.read 2, p.cmd, bufBytes p.buf 4 p.index⟩

/-- `m'` is `m` with byte `v` written at offset `i`, every other byte unchanged, in canonical form (R51). -/
def Wrote (m : Memory) (i : Nat) (v : Byte) (m' : Memory) : Prop :=
  m'.wf = true ∧ ∀ k, m'.read k = if k = i then v else m.read k

/-- `m'` is `m` with `bytes` written from offset 0, every other byte unchanged, in canonical form (R52). -/
def WroteFrame (m : Memory) (bytes : List Byte) (m' : Memory) : Prop :=
  m'.wf = true ∧ ∀ k, m'.read k = if k < bytes.length then bytes.getD k 0x00#8 else m.read k

/-- The parser after PARSER_RESET (R111). -/
def cleared (p : ParserState) : ParserState := { p with pstate := .waitSyn, index := 0 }

/-- The state with a parser and a returned outcome written, everything else unchanged. -/
def consumed (s : State) (c : Chan) (p : ParserState) (o : ParserOutcome) : State :=
  { s.setParser c p with returned := s.returned ++ [.parserConsume o] }

/-- Overflow: the parser reset, BufferOverflow returned, nothing written to the buffer (R110). -/
def overflowed (s : State) (c : Chan) : State := consumed s c (cleared (s.ch c).parser) .bufferOverflow

/-- PARSER_CONSUME on each byte in turn: the state after, if each has one. -/
def feed (c : Chan) : List Byte → State → Option State
  | [], s => some s
  | b :: bs, s =>
    match exec (.parserConsume c b) s with
    | .next t => feed c bs t
    | .fault _ => none
    | .refused _ => none

/-- CH_RX on each byte in turn, all at one time: an RX line (R85). -/
def receive (c : Chan) (now : Nat) : List Byte → State → Host.Outcome State Fault Refusal
  | [], s => .next s
  | b :: bs, s =>
    match exec (.chRx c b now) s with
    | .next t => receive c now bs t
    | .fault f => .fault f
    | .refused r => .refused r

/-- A tick makes a send on this channel (R132, R133). -/
def Due (ch : ChannelRuntime) (now : Nat) : Prop := ch.schedState = .idle ∧ ch.nextPollDeadline ≤ now

/-- The answer of a tick is present exactly when it makes a send (R84). -/
def AnswerFits (ch : ChannelRuntime) (now : Nat) (a : Option SendResult) : Prop := a ≠ none ↔ Due ch now

/-- The gap condition of R136. -/
def GapOver (k : ChannelConfig) (ch : ChannelRuntime) (now : Nat) : Prop :=
  ∃ g, k.gapTimeout = some g ∧ 1 ≤ ch.parser.index ∧ g < now - ch.lastRxTime

/-- The runtime record of a channel after its tick: R132, R133, R135, R136, or unchanged (R134, R137). -/
def ticked (k : ChannelConfig) (ch : ChannelRuntime) (now : Nat) (a : Option SendResult) : ChannelRuntime :=
  match a with
  | some .ok =>
    { ch with schedState := .waitingReply, replyDeadline := now + k.replyTimeout, parser := cleared ch.parser }
  | some .fail => { ch with nextPollDeadline := now + k.pollInterval }
  | none =>
    if ch.schedState = .idle then ch
    else if ch.replyDeadline ≤ now then
      { ch with schedState := .idle, nextPollDeadline := now + k.pollInterval, parser := cleared ch.parser }
    else
      match k.gapTimeout with
      | none => ch
      | some g => if 1 ≤ ch.parser.index ∧ g < now - ch.lastRxTime then { ch with parser := cleared ch.parser } else ch

/-- The sends of a channel's tick (R132, R133). -/
def tickSends (c : Chan) (k : ChannelConfig) (a : Option SendResult) : List SendRecord :=
  match a with
  | some r => [⟨c, poll k, r⟩]
  | none => []

/-- The events of a channel's tick (R132, R133, R135). -/
def tickDiags (c : Chan) (k : ChannelConfig) (ch : ChannelRuntime) (now : Nat) (a : Option SendResult) : List DiagRecord :=
  match a with
  | some .ok => [⟨c, .frameSent (poll k)⟩]
  | some .fail => [⟨c, .sendFailure (poll k)⟩]
  | none => if ch.schedState = .waitingReply ∧ ch.replyDeadline ≤ now then [⟨c, .replyTimeout⟩] else []

/-- The constraints INIT checks (R160). -/
def AddressOk (k : ChannelConfig) : Prop := 1 ≤ k.stationAddr.toNat ∧ k.stationAddr.toNat ≤ 32

/-- The gap threshold is below the reply timeout, where the watchdog is present (R25, R160). -/
def GapOk (k : ChannelConfig) : Prop := ∀ g, k.gapTimeout = some g → g < k.replyTimeout

/-- A runtime record as INIT leaves it (R46): an empty cell list reads 0x00 at every offset. -/
def initialRuntime : ChannelRuntime :=
  { schedState := .idle
    nextPollDeadline := 0
    replyDeadline := 0
    lastRxTime := 0
    parser := { pstate := .waitSyn, buf := [], index := 0, cmd := 0x00#8, expectedLen := 0 } }

/-- The channel an operation names; ORCH_TICK and INIT act on both, BUILD_FRAME and CHECKSUM on none. -/
def chanOf : Instr → Option Chan
  | .cmdS c _ _ => some c
  | .cmdL c _ _ => some c
  | .cmdR c _ _ => some c
  | .cmdT c _ _ => some c
  | .cmdC c _ _ => some c
  | .cmdZ c _ _ => some c
  | .cmdD c _ _ => some c
  | .cmdOther c _ _ _ => some c
  | .init _ _ => none
  | .orchTick _ _ _ => none
  | .chTick c _ _ => some c
  | .chRx c _ _ => some c
  | .sendCommand c _ _ _ _ => some c
  | .buildFrame _ _ _ _ => none
  | .checksum _ => none
  | .parserConsume c _ => some c
  | .parserReset c => some c

/-- The `now` operand of an operation (R82), where it has one. -/
def timeOf : Instr → Option Nat
  | .cmdS _ now _ => some now
  | .cmdL _ now _ => some now
  | .cmdR _ now _ => some now
  | .cmdT _ now _ => some now
  | .cmdC _ now _ => some now
  | .cmdZ _ now _ => some now
  | .cmdD _ now _ => some now
  | .cmdOther _ now _ _ => some now
  | .init _ _ => none
  | .orchTick now _ _ => some now
  | .chTick _ now _ => some now
  | .chRx _ _ now => some now
  | .sendCommand _ _ _ _ _ => none
  | .buildFrame _ _ _ _ => none
  | .checksum _ => none
  | .parserConsume _ _ => none
  | .parserReset _ => none

/-- The channel whose parser an operation feeds (R44, R100, R141). -/
def fedBy : Instr → Option Chan
  | .cmdS c _ _ => some c
  | .cmdL c _ _ => some c
  | .cmdR c _ _ => some c
  | .cmdT c _ _ => some c
  | .cmdC c _ _ => some c
  | .cmdZ c _ _ => some c
  | .cmdD c _ _ => some c
  | .cmdOther c _ _ _ => some c
  | .init _ _ => none
  | .orchTick _ _ _ => none
  | .chTick _ _ _ => none
  | .chRx c _ _ => some c
  | .sendCommand _ _ _ _ _ => none
  | .buildFrame _ _ _ _ => none
  | .checksum _ => none
  | .parserConsume c _ => some c
  | .parserReset _ => none

/-- No byte was received later than the latest operation (R39, R130). -/
def ReceivedInThePast (s : State) : Prop := ∀ c, (s.ch c).lastRxTime ≤ s.clock

/-- What a tick of a channel may write, from the record `x` before it to the record `y` after it (R44's two CH_TICK columns, R132 to R137):
`last_rx_time`, `cmd`, `expected_len` and the buffer never, each other field only in the case that names it. -/
structure TickWrites (x y : ChannelRuntime) (now : Nat) (a : Option SendResult) : Prop where
  lastRxTime : y.lastRxTime = x.lastRxTime
  buf : y.parser.buf = x.parser.buf
  cmd : y.parser.cmd = x.parser.cmd
  expectedLen : y.parser.expectedLen = x.parser.expectedLen
  /-- Only a poll that was sent writes `reply_deadline` (R38, R132). -/
  replyDeadline : ¬ (Due x now ∧ a = some .ok) → y.replyDeadline = x.replyDeadline
  /-- Only a failed send and a reply timeout write `next_poll_deadline` (R133, R135). -/
  nextPollDeadline : ¬ (Due x now ∧ a = some .fail) → ¬ (x.schedState = .waitingReply ∧ x.replyDeadline ≤ now) →
    y.nextPollDeadline = x.nextPollDeadline
  /-- Only a poll that was sent and a reply timeout change `sched_state` (R132, R135). -/
  schedState : ¬ (Due x now ∧ a = some .ok) → ¬ (x.schedState = .waitingReply ∧ x.replyDeadline ≤ now) → y.schedState = x.schedState
  /-- In Idle only a poll that was sent resets the parser (R132, R133, R134). -/
  idleParser : x.schedState = .idle → ¬ (Due x now ∧ a = some .ok) → y.parser = x.parser

/-- What received bytes may write (R44's two CH_RX columns, R141 to R146). -/
structure RxWrites (x y : ChannelRuntime) : Prop where
  /-- In Idle, nothing (R146). -/
  idle : x.schedState = .idle → y = x
  replyDeadline : y.replyDeadline = x.replyDeadline
  /-- `next_poll_deadline` only with the return to Idle (R142 to R145). -/
  waiting : y.schedState = .waitingReply → x.schedState = .waitingReply ∧ y.nextPollDeadline = x.nextPollDeadline

/-- The three operations that do not need INIT (R161). -/
def NeedsNoInit : Instr → Prop
  | .init _ _ => True
  | .buildFrame _ _ _ _ => True
  | .checksum _ => True
  | _ => False

/-- The events that end a reply window (R138). -/
def Closing : DiagEvent → Prop
  | .frameReceived _ _ => True
  | .checksumError => True
  | .bufferOverflow => True
  | .replyTimeout => True
  | _ => False

/-- A channel's part of the Diag stream. -/
def diagsOf (s : State) (c : Chan) : List DiagRecord := s.diags.filter (fun x => x.chan = c)

/-- A channel's part of the Result stream. -/
def resultsOf (s : State) (c : Chan) : List ResultRecord := s.results.filter (fun x => x.chan = c)

/-- A channel's sends. -/
def sendsOf (s : State) (c : Chan) : List SendRecord := s.sends.filter (fun x => x.chan = c)

/-- Two parsers agree on everything R47 says can be read before it is written. -/
structure ParserAgrees (p q : ParserState) : Prop where
  pstate : p.pstate = q.pstate
  index : p.index = q.index
  buffered : ∀ k, k < p.index → p.buf.read k = q.buf.read k
  recorded : p.pstate = .waitData ∨ p.pstate = .waitChecksum → p.cmd = q.cmd ∧ p.expectedLen = q.expectedLen

/-- Two runtime records agree on everything R38, R39 and R47 say can be read before it is written. -/
structure RuntimeAgrees (x y : ChannelRuntime) : Prop where
  schedState : x.schedState = y.schedState
  nextPollDeadline : x.nextPollDeadline = y.nextPollDeadline
  replyDeadline : x.schedState = .waitingReply → x.replyDeadline = y.replyDeadline
  lastRxTime : x.schedState = .waitingReply → 1 ≤ x.parser.index → x.lastRxTime = y.lastRxTime
  parser : ParserAgrees x.parser y.parser

/-- Two states agree on the configuration, the observation and everything R47 says can be read before it is written. -/
structure Agrees (s t : State) : Prop where
  initialized : s.initialized = t.initialized
  cfg : ∀ c, s.cfg c = t.cfg c
  ch : ∀ c, RuntimeAgrees (s.ch c) (t.ch c)
  capacity : s.capacity = t.capacity
  outBuf : s.outBuf = t.outBuf
  sends : s.sends = t.sends
  results : s.results = t.results
  diags : s.diags = t.diags
  returned : s.returned = t.returned

end Sys2Proof.Spec

open Sys2Proof.Spec

/-! ## Encodings -/

/-- R14, R82, R130, R212, log entries 7 and 12: step performs exactly the operation the host's bytes decode to, on the state past its bytes
and at its time; with no bytes, bytes that are no operation, or a `now` earlier than the latest one, it is refused by name. -/
def Obligations.StepPerformsTheDecodedOperation : Prop :=
  ∀ s : State,
    (s.script = [] → step s = .refused .noOperation) ∧
    (∀ e, s.script ≠ [] → decode s.script = .error e → step s = .refused (.notAnOperation e)) ∧
    (∀ i rest, decode s.script = .ok (i, rest) →
      (timeOf i = none → step s = exec i { s with script := rest }) ∧
      (∀ now, timeOf i = some now → s.clock ≤ now → step s = exec i { s with script := rest, clock := now }) ∧
      (∀ now, timeOf i = some now → now < s.clock → step s = .refused (.clockWentBack s.clock now)))

/-- R82, R79, log entries 4 and 6: decode reads back every well-formed operation from its bytes, every operand at every value, and leaves
the bytes after it. -/
def Obligations.EncodedOperationsDecode : Prop :=
  ∀ i : Instr, i.WellFormed → ∀ rest, decode (encode i ++ rest) = .ok (i, rest)

/-- R79, R82: whatever the decoder accepts is well formed (a frame row carries the payload its command byte selects) and takes at least
one byte from the front. It holds of the model's own writing of operations (DESIGN CHOICE, log entries 4 and 6). -/
def Obligations.DecodedOperationsAreWellFormed : Prop :=
  ∀ bs i rest, decode bs = .ok (i, rest) → i.WellFormed ∧ ∃ used, used ≠ [] ∧ bs = used ++ rest

/-- R70, R76, R82: some words written out from the spec's tags and command bytes decode to the operation they stand for. -/
def Obligations.WrittenWordsDecode : Prop :=
  decode [0x04#8, 0x00#8, 0x02#8, 0x1E#8] = .ok (.chRx .ch0 0x02#8 30, []) ∧
  decode [0x02#8, 0x00#8, 0x01#8, 0x02#8] = .ok (.orchTick 0 (some .ok) (some .fail), []) ∧
  decode [0x05#8, 0x01#8, 0x09#8, 0x44#8, 0x02#8, 0x01#8, 0x02#8, 0x01#8] =
    .ok (.sendCommand .ch1 9 0x44#8 [0x01#8, 0x02#8] (some .ok), []) ∧
  decode [0x53#8, 0x00#8, 0x05#8, 0x12#8, 0x34#8, 0x70#8, 0x00#8, 0x1E#8] =
    .ok (.cmdS .ch0 30 ⟨0x00#8, 0x05#8, [0x12#8, 0x34#8], 0x70#8⟩, []) ∧
  decode [0x41#8, 0x00#8, 0x05#8, 0x44#8, 0x01#8, 0x00#8] = .ok (.cmdOther .ch1 0 0x41#8 ⟨0x00#8, 0x05#8, [], 0x44#8⟩, [])

/-- R83, R84: an operation of R82 that names a channel other than 0 or 1 is refused by name and has no step. -/
def Obligations.OtherChannelsAreRefused : Prop :=
  ∀ (s : State) (tag b : Byte) (rest : List Byte), tag ∈ [0x03#8, 0x04#8, 0x05#8, 0x08#8, 0x09#8] → b ≠ 0x00#8 → b ≠ 0x01#8 →
    s.script = tag :: b :: rest → step s = .refused (.notAnOperation (.badChannel b))

/-! ## FrameCodec -/

/-- R90: CHECKSUM returns the byte whose every bit is the parity of that bit over the list, and changes nothing else. -/
def Obligations.ChecksumReturnsTheParityOfEachBit : Prop :=
  ∀ (bytes : List Byte) (s : State), ∃ v : Byte,
    exec (.checksum bytes) s = .next { s with returned := s.returned ++ [.checksum v] } ∧
    ∀ k, k < 8 → v.getLsbD k = decide (bytes.countP (fun b => b.getLsbD k) % 2 = 1)

/-- R91 (a), (b), (c): a list with its own checksum has checksum 0x00; one flipped bit changes the checksum; the same bit flipped in two
bytes does not. -/
def Obligations.ChecksumDetectsOneFlipAndNotTwo : Prop :=
  (∀ xs : List Byte, checksumOf (xs ++ [checksumOf xs]) = 0x00#8) ∧
  (∀ (xs ys : List Byte) (b : Byte) (k : Nat), k < 8 →
    checksumOf (xs ++ [b ^^^ BitVec.twoPow 8 k] ++ ys) ≠ checksumOf (xs ++ [b] ++ ys)) ∧
  (∀ (xs ys zs : List Byte) (a b : Byte) (k : Nat),
    checksumOf (xs ++ [a ^^^ BitVec.twoPow 8 k] ++ ys ++ [b ^^^ BitVec.twoPow 8 k] ++ zs) =
      checksumOf (xs ++ [a] ++ ys ++ [b] ++ zs))

/-- R92, R95: with valid arguments BUILD_FRAME writes exactly the frame of R70 from offset 0 of the caller's buffer, leaves every other
byte of it and every other field as it was, and returns its length. -/
def Obligations.BuildFrameWritesTheFrame : Prop :=
  ∀ (addr : Nat) (cmd : Byte) (payload : List Byte) (outCap : Nat) (s : State),
    1 ≤ addr → addr ≤ 32 → payload.length ≤ 22 → 5 + payload.length ≤ outCap → s.outBuf.wf = true →
    ∃ out, WroteFrame s.outBuf (frame addr cmd payload) out ∧
      exec (.buildFrame addr cmd payload outCap) s =
        .next { s with outBuf := out, returned := s.returned ++ [.buildFrame (.len (5 + payload.length))] }

/-- R92, R93, R176: BUILD_FRAME's checks, in the order address, payload length, capacity; the first that fails gives the reason, and
nothing is written. -/
def Obligations.BuildFrameReportsTheFirstViolation : Prop :=
  ∀ (addr : Nat) (cmd : Byte) (payload : List Byte) (outCap : Nat) (s : State),
    (addr < 1 ∨ 32 < addr → exec (.buildFrame addr cmd payload outCap) s =
      .next { s with returned := s.returned ++ [.buildFrame (.validationError .addressOutOfRange)] }) ∧
    (1 ≤ addr ∧ addr ≤ 32 → 22 < payload.length → exec (.buildFrame addr cmd payload outCap) s =
      .next { s with returned := s.returned ++ [.buildFrame (.validationError .payloadTooLong)] }) ∧
    (1 ≤ addr ∧ addr ≤ 32 → payload.length ≤ 22 → outCap < 5 + payload.length → exec (.buildFrame addr cmd payload outCap) s =
      .next { s with returned := s.returned ++ [.buildFrame (.validationError .bufferTooSmall)] })

/-- R96, first case: what BUILD_FRAME writes, fed to a parser in WaitSyn byte by byte, gives InProgress for every byte but the last and
then Success with the original address, command and payload, when the payload has the table's length. -/
def Obligations.BuiltFramesParseBack : Prop :=
  ∀ (c : Chan) (addr : Nat) (cmd : Byte) (payload : List Byte) (s : State),
    s.initialized = true → s.outBuf.wf = true → (s.ch c).parser.buf.wf = true → 26 ≤ s.capacity →
    (s.ch c).parser.pstate = .waitSyn → (s.ch c).parser.index = 0 →
    1 ≤ addr → addr ≤ 32 → payload.length = tableLen cmd →
    ∃ u t, exec (.buildFrame addr cmd payload 27) s = .next u ∧
      feed c (bufBytes u.outBuf 0 (5 + payload.length)) u = some t ∧
      t.returned = u.returned ++ List.replicate (4 + payload.length) (.parserConsume .inProgress) ++
        [.parserConsume (.success ⟨BitVec.ofNat 8 addr, cmd, payload⟩)] ∧
      (t.ch c).parser.pstate = .waitSyn ∧ (t.ch c).parser.index = 0

/-- R96, second case: when the payload is shorter than the table's length, every byte of the built frame gives InProgress and the parser
is left in WaitData or WaitChecksum, still waiting. -/
def Obligations.ShortPayloadsLeaveTheParserWaiting : Prop :=
  ∀ (c : Chan) (addr : Nat) (cmd : Byte) (payload : List Byte) (s : State),
    s.initialized = true → (s.ch c).parser.buf.wf = true → 26 ≤ s.capacity →
    (s.ch c).parser.pstate = .waitSyn → (s.ch c).parser.index = 0 → payload.length < tableLen cmd →
    ∃ t, feed c (frame addr cmd payload) s = some t ∧
      t.returned = s.returned ++ List.replicate (5 + payload.length) (.parserConsume .inProgress) ∧
      (t.ch c).parser.index = 5 + payload.length ∧
      (t.ch c).parser.pstate = if payload.length + 1 = tableLen cmd then .waitChecksum else .waitData

/-! ## FrameParser -/

/-- R101: in WaitSyn a byte other than 0x02 is discarded with all state unchanged; 0x02 is buffered and the parser advances, or overflows
when there is no room. -/
def Obligations.WaitSynSearchesForTheSyncMarker : Prop :=
  ∀ (c : Chan) (b : Byte) (s : State), s.initialized = true → (s.ch c).parser.pstate = .waitSyn →
    (b ≠ 0x02#8 → exec (.parserConsume c b) s = .next (consumed s c (s.ch c).parser .inProgress)) ∧
    (b = 0x02#8 → s.capacity ≤ (s.ch c).parser.index → exec (.parserConsume c b) s = .next (overflowed s c)) ∧
    (b = 0x02#8 → (s.ch c).parser.index < s.capacity → (s.ch c).parser.buf.wf = true →
      ∃ m, Wrote (s.ch c).parser.buf (s.ch c).parser.index 0x02#8 m ∧ exec (.parserConsume c b) s =
        .next (consumed s c { (s.ch c).parser with pstate := .waitAddrHi, buf := m, index := (s.ch c).parser.index + 1 }
          .inProgress))

/-- R102, R103: the two address bytes are buffered unconditionally, whatever they are, and the parser advances; with no room the parser
overflows. -/
def Obligations.AddressBytesAreBufferedUnconditionally : Prop :=
  ∀ (c : Chan) (b : Byte) (s : State) (before after : PState), s.initialized = true → (s.ch c).parser.pstate = before →
    (before = .waitAddrHi ∧ after = .waitAddrLo) ∨ (before = .waitAddrLo ∧ after = .waitCmd) →
    (s.capacity ≤ (s.ch c).parser.index → exec (.parserConsume c b) s = .next (overflowed s c)) ∧
    ((s.ch c).parser.index < s.capacity → (s.ch c).parser.buf.wf = true →
      ∃ m, Wrote (s.ch c).parser.buf (s.ch c).parser.index b m ∧ exec (.parserConsume c b) s =
        .next (consumed s c { (s.ch c).parser with pstate := after, buf := m, index := (s.ch c).parser.index + 1 } .inProgress))

/-- R76, R77, R104: in WaitCmd the byte is buffered and recorded, its payload length is looked up in the table, and the parser goes to
WaitData if it is positive and straight to WaitChecksum if not; with no room it overflows. The byte values of six letters are from
general knowledge (G1 of the spec, log entry 13). -/
def Obligations.CommandByteSelectsThePayloadLength : Prop :=
  ∀ (c : Chan) (b : Byte) (s : State), s.initialized = true → (s.ch c).parser.pstate = .waitCmd →
    (s.capacity ≤ (s.ch c).parser.index → exec (.parserConsume c b) s = .next (overflowed s c)) ∧
    ((s.ch c).parser.index < s.capacity → (s.ch c).parser.buf.wf = true →
      ∃ m, Wrote (s.ch c).parser.buf (s.ch c).parser.index b m ∧ exec (.parserConsume c b) s =
        .next (consumed s c
          { pstate := if 0 < tableLen b then .waitData else .waitChecksum
            buf := m
            index := (s.ch c).parser.index + 1
            cmd := b
            expectedLen := tableLen b } .inProgress))

/-- R105: in WaitData every byte is payload, and the parser goes to WaitChecksum exactly when `4 + expected_len` bytes are buffered; with
no room it overflows. -/
def Obligations.PayloadBytesAreCounted : Prop :=
  ∀ (c : Chan) (b : Byte) (s : State), s.initialized = true → (s.ch c).parser.pstate = .waitData →
    (s.capacity ≤ (s.ch c).parser.index → exec (.parserConsume c b) s = .next (overflowed s c)) ∧
    ((s.ch c).parser.index < s.capacity → (s.ch c).parser.buf.wf = true →
      ∃ m, Wrote (s.ch c).parser.buf (s.ch c).parser.index b m ∧ exec (.parserConsume c b) s =
        .next (consumed s c { (s.ch c).parser with
          pstate := if (s.ch c).parser.index + 1 = 4 + (s.ch c).parser.expectedLen then .waitChecksum else .waitData
          buf := m
          index := (s.ch c).parser.index + 1 } .inProgress))

/-- R110: in every state that buffers its byte (any but WaitChecksum, and in WaitSyn the sync marker alone) a full buffer discards the
byte, resets the parser, writes nothing and gives BufferOverflow (D8); otherwise the byte is written at `index`, which moves on by one. -/
def Obligations.BufferedBytesAreGuarded : Prop :=
  ∀ (c : Chan) (b : Byte) (s : State), s.initialized = true → (s.ch c).parser.pstate ≠ .waitChecksum →
    ((s.ch c).parser.pstate = .waitSyn → b = 0x02#8) →
    (s.capacity ≤ (s.ch c).parser.index → exec (.parserConsume c b) s = .next (overflowed s c)) ∧
    ((s.ch c).parser.index < s.capacity → (s.ch c).parser.buf.wf = true →
      ∃ p, Wrote (s.ch c).parser.buf (s.ch c).parser.index b p.buf ∧ p.index = (s.ch c).parser.index + 1 ∧
        exec (.parserConsume c b) s = .next (consumed s c p .inProgress))

/-- R106, R108, R109: in WaitChecksum the byte that equals the checksum of the buffered bytes but the sync marker gives Success with the
frame as buffered, is not itself buffered, and resets the parser. -/
def Obligations.MatchingChecksumYieldsTheFrame : Prop :=
  ∀ (c : Chan) (b : Byte) (s : State), s.initialized = true → (s.ch c).parser.pstate = .waitChecksum →
    4 ≤ (s.ch c).parser.index → (s.ch c).parser.index ≤ s.capacity →
    b = xorAll (bufBytes (s.ch c).parser.buf 1 (s.ch c).parser.index) →
    exec (.parserConsume c b) s = .next (consumed s c (cleared (s.ch c).parser) (.success (parsed (s.ch c).parser)))

/-- R107: in WaitChecksum any other byte gives ChecksumError and resets the parser; the byte is consumed, a 0x02 among them. -/
def Obligations.WrongChecksumIsAnError : Prop :=
  ∀ (c : Chan) (b : Byte) (s : State), s.initialized = true → (s.ch c).parser.pstate = .waitChecksum →
    4 ≤ (s.ch c).parser.index → (s.ch c).parser.index ≤ s.capacity →
    b ≠ xorAll (bufBytes (s.ch c).parser.buf 1 (s.ch c).parser.index) →
    exec (.parserConsume c b) s = .next (consumed s c (cleared (s.ch c).parser) .checksumError)

/-- R111: PARSER_RESET sets `pstate` to WaitSyn and `index` to 0 and keeps everything else. -/
def Obligations.ParserResetKeepsTheRest : Prop :=
  ∀ (c : Chan) (s : State), s.initialized = true →
    exec (.parserReset c) s =
      .next (s.setCh c { s.ch c with parser := { (s.ch c).parser with pstate := .waitSyn, index := 0 } })

/-- R100: every PARSER_CONSUME that has a step returns exactly one outcome, and a terminal one leaves the parser reset. -/
def Obligations.TerminalOutcomesResetTheParser : Prop :=
  ∀ (c : Chan) (b : Byte) (s t : State), exec (.parserConsume c b) s = .next t →
    ∃ o, t.returned = s.returned ++ [.parserConsume o] ∧ (o ≠ .inProgress → (t.ch c).parser = cleared (s.ch c).parser)

/-- R114: with CAPACITY at least 26, from every state that meets the invariant, PARSER_CONSUME has a step and never returns
BufferOverflow. -/
def Obligations.OverflowIsUnreachableAtConformingCapacity : Prop :=
  ∀ (c : Chan) (b : Byte) (s : State), s.Inv → s.initialized = true → 26 ≤ s.capacity →
    ∃ o t, exec (.parserConsume c b) s = .next t ∧ t.returned = s.returned ++ [.parserConsume o] ∧ o ≠ .bufferOverflow

/-- R113: bytes without a 0x02, fed to a parser in WaitSyn, give InProgress each and leave it as it was, so what follows them is parsed
exactly as without them. -/
def Obligations.NoiseBeforeAFrameIsDiscarded : Prop :=
  ∀ (c : Chan) (noise bytes : List Byte) (s : State), s.initialized = true → (s.ch c).parser.pstate = .waitSyn →
    (∀ b ∈ noise, b ≠ 0x02#8) →
    feed c (noise ++ bytes) s =
      feed c bytes { s with returned := s.returned ++ List.replicate noise.length (.parserConsume .inProgress) }

/-- R79, R80, R112: from WaitSyn a sync marker and any header, payload of the table's length and checksum byte, whatever their values (a
0x02 among them), give InProgress for every byte but the last, and the last gives Success or ChecksumError by comparison. -/
def Obligations.EveryFrameEndsAtItsLength : Prop :=
  ∀ (c : Chan) (hi lo cmd cs : Byte) (payload : List Byte) (s : State),
    s.initialized = true → (s.ch c).parser.buf.wf = true → 26 ≤ s.capacity →
    (s.ch c).parser.pstate = .waitSyn → (s.ch c).parser.index = 0 → payload.length = tableLen cmd →
    ∃ t, feed c ([0x02#8, hi, lo, cmd] ++ payload ++ [cs]) s = some t ∧
      t.returned = s.returned ++ List.replicate (4 + payload.length) (.parserConsume .inProgress) ++
        [.parserConsume (if cs = xorAll ([hi, lo, cmd] ++ payload) then .success ⟨lo, cmd, payload⟩ else .checksumError)] ∧
      (t.ch c).parser.pstate = .waitSyn ∧ (t.ch c).parser.index = 0

/-! ## ChannelScheduler -/

/-- R132: Idle, poll due, send answered ok: the poll frame is sent, the parser reset, the reply deadline set from this tick's `now` (D5)
and the channel waits. The configuration is one INIT admits (R139). -/
def Obligations.DuePollIsSent : Prop :=
  ∀ (c : Chan) (now : Nat) (s : State), s.initialized = true → AddressOk (s.cfg c) → (s.ch c).schedState = .idle →
    (s.ch c).nextPollDeadline ≤ now →
    exec (.chTick c now (some .ok)) s =
      .next { s.setCh c { s.ch c with
          schedState := .waitingReply
          replyDeadline := now + (s.cfg c).replyTimeout
          parser := cleared (s.ch c).parser } with
        sends := s.sends ++ [⟨c, poll (s.cfg c), .ok⟩]
        diags := s.diags ++ [⟨c, .frameSent (poll (s.cfg c))⟩] }

/-- R133: Idle, poll due, send answered fail: the next attempt is an interval after this tick, the channel stays Idle and the parser is
not reset (D29). -/
def Obligations.FailedPollIsRetriedAnIntervalLater : Prop :=
  ∀ (c : Chan) (now : Nat) (s : State), s.initialized = true → AddressOk (s.cfg c) → (s.ch c).schedState = .idle →
    (s.ch c).nextPollDeadline ≤ now →
    exec (.chTick c now (some .fail)) s =
      .next { s.setCh c { s.ch c with nextPollDeadline := now + (s.cfg c).pollInterval } with
        sends := s.sends ++ [⟨c, poll (s.cfg c), .fail⟩]
        diags := s.diags ++ [⟨c, .sendFailure (poll (s.cfg c))⟩] }

/-- R134: Idle, poll not due: no state change, no send, no event; the answer must be none. -/
def Obligations.PollNotDueDoesNothing : Prop :=
  ∀ (c : Chan) (now : Nat) (s : State), s.initialized = true → (s.ch c).schedState = .idle → now < (s.ch c).nextPollDeadline →
    exec (.chTick c now none) s = .next s ∧ ∀ r, exec (.chTick c now (some r)) s = .refused (.answerUnexpected c)

/-- R135: WaitingReply, reply deadline due, whatever the gap (D15): ReplyTimeout, parser reset, next poll an interval after
this tick, Idle. -/
def Obligations.ReplyTimeoutReturnsToIdle : Prop :=
  ∀ (c : Chan) (now : Nat) (s : State), s.initialized = true → (s.ch c).schedState = .waitingReply →
    (s.ch c).replyDeadline ≤ now →
    exec (.chTick c now none) s =
      .next { s.setCh c { s.ch c with
          schedState := .idle
          nextPollDeadline := now + (s.cfg c).pollInterval
          parser := cleared (s.ch c).parser } with
        diags := s.diags ++ [⟨c, .replyTimeout⟩] }

/-- R136: WaitingReply, deadline not due, gap exceeded strictly (D22) with a byte buffered: the parser is reset and nothing else,
no event among it (D16). -/
def Obligations.GapResetsTheParserOnly : Prop :=
  ∀ (c : Chan) (now g : Nat) (s : State), s.initialized = true → (s.ch c).schedState = .waitingReply →
    now < (s.ch c).replyDeadline → (s.cfg c).gapTimeout = some g → 1 ≤ (s.ch c).parser.index → g < now - (s.ch c).lastRxTime →
    exec (.chTick c now none) s = .next (s.setCh c { s.ch c with parser := cleared (s.ch c).parser })

/-- R137: WaitingReply, nothing due: no state change, no send, no event; the answer must be none. -/
def Obligations.WaitingWithNothingDueDoesNothing : Prop :=
  ∀ (c : Chan) (now : Nat) (s : State), s.initialized = true → (s.ch c).schedState = .waitingReply →
    now < (s.ch c).replyDeadline → ¬ GapOver (s.cfg c) (s.ch c) now →
    exec (.chTick c now none) s = .next s ∧ ∀ r, exec (.chTick c now (some r)) s = .refused (.answerUnexpected c)

/-- R84: an answer absent where a send is made, or present where none is, is refused by name, for CH_TICK and SEND_COMMAND. -/
def Obligations.AnswersMustFitTheSend : Prop :=
  ∀ (c : Chan) (s : State), s.initialized = true →
    (∀ now, Due (s.ch c) now → exec (.chTick c now none) s = .refused (.answerMissing c)) ∧
    (∀ now r, ¬ Due (s.ch c) now → exec (.chTick c now (some r)) s = .refused (.answerUnexpected c)) ∧
    (∀ addr cmd (payload : List Byte), 1 ≤ addr ∧ addr ≤ 32 → payload.length ≤ 22 →
      exec (.sendCommand c addr cmd payload none) s = .refused (.answerMissing c)) ∧
    (∀ addr cmd (payload : List Byte) r, ¬ (1 ≤ addr ∧ addr ≤ 32) ∨ 22 < payload.length →
      exec (.sendCommand c addr cmd payload (some r)) s = .refused (.answerUnexpected c))

/-- R146: a byte that arrives in Idle is discarded: nothing changes and nothing is emitted (D3). -/
def Obligations.BytesInIdleAreDiscarded : Prop :=
  ∀ (c : Chan) (b : Byte) (now : Nat) (s : State), s.initialized = true → (s.ch c).schedState = .idle →
    exec (.chRx c b now) s = .next s

/-- R141, R142: in WaitingReply a byte that leaves the parser InProgress is forwarded, whatever `now` is (D34): `last_rx_time` is written,
the parser becomes what PARSER_CONSUME makes of it, and nothing else changes. Before WaitChecksum and with room, InProgress it is. -/
def Obligations.ForwardedByteInProgress : Prop :=
  ∀ (c : Chan) (b : Byte) (now : Nat) (s : State), s.initialized = true → (s.ch c).schedState = .waitingReply →
    (∀ p, exec (.parserConsume c b) s = .next (consumed s c p .inProgress) →
      exec (.chRx c b now) s = .next (s.setCh c { s.ch c with lastRxTime := now, parser := p })) ∧
    ((s.ch c).parser.pstate ≠ .waitChecksum → (s.ch c).parser.index < s.capacity →
      ∃ p, exec (.parserConsume c b) s = .next (consumed s c p .inProgress) ∧
        exec (.chRx c b now) s = .next (s.setCh c { s.ch c with lastRxTime := now, parser := p }))

/-- R143: a byte that completes a frame with a matching checksum delivers the frame, whatever its address and command (D11), and
ends the window, even after the reply deadline (R215). -/
def Obligations.SuccessEndsTheWindow : Prop :=
  ∀ (c : Chan) (b : Byte) (now : Nat) (s : State), s.initialized = true → (s.ch c).schedState = .waitingReply →
    (s.ch c).parser.pstate = .waitChecksum → 4 ≤ (s.ch c).parser.index → (s.ch c).parser.index ≤ s.capacity →
    b = xorAll (bufBytes (s.ch c).parser.buf 1 (s.ch c).parser.index) →
    exec (.chRx c b now) s =
      .next { s.setCh c { s.ch c with
          schedState := .idle
          nextPollDeadline := now + (s.cfg c).pollInterval
          lastRxTime := now
          parser := cleared (s.ch c).parser } with
        results := s.results ++ [⟨c, parsed (s.ch c).parser⟩]
        diags := s.diags ++ [⟨c, .frameReceived ((s.ch c).parser.buf.read 2) (s.ch c).parser.cmd⟩] }

/-- R144: a byte that completes a frame with a wrong checksum reports ChecksumError and ends the window at once. -/
def Obligations.ChecksumErrorEndsTheWindow : Prop :=
  ∀ (c : Chan) (b : Byte) (now : Nat) (s : State), s.initialized = true → (s.ch c).schedState = .waitingReply →
    (s.ch c).parser.pstate = .waitChecksum → 4 ≤ (s.ch c).parser.index → (s.ch c).parser.index ≤ s.capacity →
    b ≠ xorAll (bufBytes (s.ch c).parser.buf 1 (s.ch c).parser.index) →
    exec (.chRx c b now) s =
      .next { s.setCh c { s.ch c with
          schedState := .idle
          nextPollDeadline := now + (s.cfg c).pollInterval
          lastRxTime := now
          parser := cleared (s.ch c).parser } with
        diags := s.diags ++ [⟨c, .checksumError⟩] }

/-- R145: a byte that meets a full buffer reports BufferOverflow and ends the window. -/
def Obligations.BufferOverflowEndsTheWindow : Prop :=
  ∀ (c : Chan) (b : Byte) (now : Nat) (s : State), s.initialized = true → (s.ch c).schedState = .waitingReply →
    s.capacity ≤ (s.ch c).parser.index → (s.ch c).parser.pstate ≠ .waitChecksum →
    ((s.ch c).parser.pstate = .waitSyn → b = 0x02#8) →
    exec (.chRx c b now) s =
      .next { s.setCh c { s.ch c with
          schedState := .idle
          nextPollDeadline := now + (s.cfg c).pollInterval
          lastRxTime := now
          parser := cleared (s.ch c).parser } with
        diags := s.diags ++ [⟨c, .bufferOverflow⟩] }

/-- R138: whatever operation but SEND_COMMAND is performed, every frame it sends goes out on a channel that was Idle with its poll due,
and is that channel's poll frame. -/
def Obligations.PollsGoOutOnlyFromIdle : Prop :=
  ∀ (i : Instr) (s t : State), (∀ c addr cmd payload a, i ≠ .sendCommand c addr cmd payload a) → exec i s = .next t →
    ∃ sent, t.sends = s.sends ++ sent ∧
      ∀ x ∈ sent, (s.ch x.chan).schedState = .idle ∧ x.bytes = poll (s.cfg x.chan) ∧
        ∃ now, (s.ch x.chan).nextPollDeadline ≤ now ∧
          ((∃ a0 a1, i = .orchTick now a0 a1) ∨ ∃ a, i = .chTick x.chan now a)

/-- R138, R201: after INIT, an operation that takes a channel from WaitingReply to Idle emits exactly one event on it, and that event is
FrameReceived, ChecksumError, BufferOverflow or ReplyTimeout. -/
def Obligations.EachWindowEndsInExactlyOneWay : Prop :=
  ∀ (i : Instr) (s t : State) (c : Chan), s.initialized = true → exec i s = .next t → (s.ch c).schedState = .waitingReply →
    (t.ch c).schedState = .idle → ∃ ev, Closing ev ∧ diagsOf t c = diagsOf s c ++ [⟨c, ev⟩]

/-- R147, R148: a reply window is over at the first tick at or after its deadline, whatever bytes arrive after that tick, and the next
poll is attempted, not at a tick before an interval has passed, but at any tick from then on. -/
def Obligations.PollCyclesAreBounded : Prop :=
  ∀ (c : Chan) (now : Nat) (s : State), s.initialized = true → (s.ch c).schedState = .waitingReply →
    (s.ch c).replyDeadline ≤ now →
    ∃ t, exec (.chTick c now none) s = .next t ∧ (t.ch c).schedState = .idle ∧
      (∀ b time, exec (.chRx c b time) t = .next t) ∧
      (∀ now', now' < now + (s.cfg c).pollInterval → exec (.chTick c now' none) t = .next t) ∧
      (∀ now' r, now + (s.cfg c).pollInterval ≤ now' →
        ∃ u, exec (.chTick c now' (some r)) t = .next u ∧ u.sends = t.sends ++ [⟨c, poll (s.cfg c), r⟩])

/-! ## Orchestrator -/

/-- R46, R160, R200: INIT with legal configurations stores them, sets every runtime field of both channels to its reset value and returns
Ok. -/
def Obligations.InitSetsEveryField : Prop :=
  ∀ (k0 k1 : ChannelConfig) (s : State), s.initialized = false → AddressOk k0 → GapOk k0 → AddressOk k1 → GapOk k1 →
    exec (.init k0 k1) s =
      .next { s with
        initialized := true
        cfg0 := k0
        cfg1 := k1
        ch0 := initialRuntime
        ch1 := initialRuntime
        returned := s.returned ++ [.init .ok] }

/-- R160: INIT's checks, channel 0 first, the address before the gap; nothing is written and the block stays uninitialized. -/
def Obligations.InitRejectsBadConfigurations : Prop :=
  ∀ (k0 k1 : ChannelConfig) (s : State), s.initialized = false →
    (¬ AddressOk k0 → exec (.init k0 k1) s =
      .next { s with returned := s.returned ++ [.init (.configRejected .ch0 .stationAddress)] }) ∧
    (AddressOk k0 → ¬ GapOk k0 → exec (.init k0 k1) s =
      .next { s with returned := s.returned ++ [.init (.configRejected .ch0 .gapNotBelowTimeout)] }) ∧
    (AddressOk k0 → GapOk k0 → ¬ AddressOk k1 → exec (.init k0 k1) s =
      .next { s with returned := s.returned ++ [.init (.configRejected .ch1 .stationAddress)] }) ∧
    (AddressOk k0 → GapOk k0 → AddressOk k1 → ¬ GapOk k1 → exec (.init k0 k1) s =
      .next { s with returned := s.returned ++ [.init (.configRejected .ch1 .gapNotBelowTimeout)] })

/-- R84, R161: before INIT every operation but INIT, CHECKSUM and BUILD_FRAME is refused, and those three never are; after INIT, INIT is
refused. That the refusal before INIT is named beforeInit also where the answer does not fit is the model's choice (log entry 14). -/
def Obligations.AdmissionFollowsInit : Prop :=
  (∀ (i : Instr) (s : State), s.initialized = false → ¬ NeedsNoInit i → exec i s = .refused .beforeInit) ∧
  (∀ (i : Instr) (s : State), s.initialized = false → NeedsNoInit i → ∃ t, exec i s = .next t) ∧
  (∀ (k0 k1 : ChannelConfig) (s : State), s.initialized = true → exec (.init k0 k1) s = .refused .alreadyInitialized)

/-- R202: after a successful INIT each channel's first CH_TICK attempts its poll, whatever its `now` is, and has no step without the
environment's answer to that send. -/
def Obligations.FirstTickAttemptsThePoll : Prop :=
  ∀ (k0 k1 : ChannelConfig) (s : State), s.initialized = false → AddressOk k0 → GapOk k0 → AddressOk k1 → GapOk k1 →
    ∃ t, exec (.init k0 k1) s = .next t ∧ ∀ (c : Chan) (now : Nat),
      exec (.chTick c now none) t = .refused (.answerMissing c) ∧
      ∀ r, ∃ u, exec (.chTick c now (some r)) t = .next u ∧ u.sends = s.sends ++ [⟨c, poll (if c = .ch0 then k0 else k1), r⟩]

/-- R162, R163 (D18): ORCH_TICK ticks channel 0 and then channel 1 with one `now`: each channel's record, sends and events are those of
its own CH_TICK on the state before, and nothing else changes; when one answer does not fit the whole of it is refused (DEDUCED from R84,
log entry 20). The order of the two channels' sends and events is D18's. The configurations are ones INIT admits (R139). -/
def Obligations.OrchTickTicksBothChannels : Prop :=
  ∀ (now : Nat) (a0 a1 : Option SendResult) (s : State), s.initialized = true → AddressOk s.cfg0 → AddressOk s.cfg1 →
    (AnswerFits s.ch0 now a0 → AnswerFits s.ch1 now a1 →
      exec (.orchTick now a0 a1) s =
        .next { s with
          ch0 := ticked s.cfg0 s.ch0 now a0
          ch1 := ticked s.cfg1 s.ch1 now a1
          sends := s.sends ++ Spec.tickSends .ch0 s.cfg0 a0 ++ Spec.tickSends .ch1 s.cfg1 a1
          diags := s.diags ++ tickDiags .ch0 s.cfg0 s.ch0 now a0 ++ tickDiags .ch1 s.cfg1 s.ch1 now a1 }) ∧
    (¬ (AnswerFits s.ch0 now a0 ∧ AnswerFits s.ch1 now a1) → ∃ r, exec (.orchTick now a0 a1) s = .refused r)

/-- R164: SEND_COMMAND with valid arguments builds the frame of R70 in the transmit buffer, sends it, records FrameSent or SendFailure
and returns Ok or TransportSendFailure; with a bad address or a payload over 22 bytes it returns the reason and sends nothing. No
configuration or runtime field changes (D17). -/
def Obligations.SendCommandSendsOneFrame : Prop :=
  ∀ (c : Chan) (addr : Nat) (cmd : Byte) (payload : List Byte) (s : State), s.initialized = true →
    (1 ≤ addr ∧ addr ≤ 32 → payload.length ≤ 22 → s.txBuf.wf = true →
      ∃ tx, WroteFrame s.txBuf (frame addr cmd payload) tx ∧
        exec (.sendCommand c addr cmd payload (some .ok)) s =
          .next { s with
            txBuf := tx
            sends := s.sends ++ [⟨c, frame addr cmd payload, .ok⟩]
            diags := s.diags ++ [⟨c, .frameSent (frame addr cmd payload)⟩]
            returned := s.returned ++ [.sendCommand .ok] } ∧
        exec (.sendCommand c addr cmd payload (some .fail)) s =
          .next { s with
            txBuf := tx
            sends := s.sends ++ [⟨c, frame addr cmd payload, .fail⟩]
            diags := s.diags ++ [⟨c, .sendFailure (frame addr cmd payload)⟩]
            returned := s.returned ++ [.sendCommand .transportSendFailure] }) ∧
    (¬ (1 ≤ addr ∧ addr ≤ 32) → exec (.sendCommand c addr cmd payload none) s =
      .next { s with returned := s.returned ++ [.sendCommand (.validationError .addressOutOfRange)] }) ∧
    (1 ≤ addr ∧ addr ≤ 32 → 22 < payload.length → exec (.sendCommand c addr cmd payload none) s =
      .next { s with returned := s.returned ++ [.sendCommand (.validationError .payloadTooLong)] })

/-! ## Frame commands (log entry 5): CMD_S, CMD_L, CMD_R, CMD_T, CMD_C, CMD_Z, CMD_D and CMD_OTHER -/

/-- R70, R76, R79, R143: in an open window with the parser in WaitSyn, a frame of any of the eight rows with the table's payload length
and a matching checksum is delivered as one Result and ends the window; its bytes but the checksum are in the parser's buffer, and
nothing else changes. -/
def Obligations.ReceivedFrameIsDelivered : Prop :=
  ∀ (cmd : Byte) (c : Chan) (now : Nat) (f : WireFrame) (s : State),
    s.initialized = true → (s.ch c).schedState = .waitingReply → (s.ch c).parser.buf.wf = true → 26 ≤ s.capacity →
    (s.ch c).parser.pstate = .waitSyn → (s.ch c).parser.index = 0 → f.payload.length = tableLen cmd →
    f.checksum = xorAll ([f.addrHi, f.addrLo, cmd] ++ f.payload) →
    ∃ m, WroteFrame (s.ch c).parser.buf ([0x02#8, f.addrHi, f.addrLo, cmd] ++ f.payload) m ∧
      exec (frameRow cmd c now f) s =
        .next { s.setCh c { s.ch c with
            schedState := .idle
            nextPollDeadline := now + (s.cfg c).pollInterval
            lastRxTime := now
            parser := { pstate := .waitSyn, buf := m, index := 0, cmd := cmd, expectedLen := tableLen cmd } } with
          results := s.results ++ [⟨c, ⟨f.addrLo, cmd, f.payload⟩⟩]
          diags := s.diags ++ [⟨c, .frameReceived f.addrLo cmd⟩] }

/-- R70, R76, R79, R144: the same frame with any other checksum byte is delivered to nobody: one ChecksumError, and the window ends. -/
def Obligations.CorruptedFrameIsReported : Prop :=
  ∀ (cmd : Byte) (c : Chan) (now : Nat) (f : WireFrame) (s : State),
    s.initialized = true → (s.ch c).schedState = .waitingReply → (s.ch c).parser.buf.wf = true → 26 ≤ s.capacity →
    (s.ch c).parser.pstate = .waitSyn → (s.ch c).parser.index = 0 → f.payload.length = tableLen cmd →
    f.checksum ≠ xorAll ([f.addrHi, f.addrLo, cmd] ++ f.payload) →
    ∃ m, WroteFrame (s.ch c).parser.buf ([0x02#8, f.addrHi, f.addrLo, cmd] ++ f.payload) m ∧
      exec (frameRow cmd c now f) s =
        .next { s.setCh c { s.ch c with
            schedState := .idle
            nextPollDeadline := now + (s.cfg c).pollInterval
            lastRxTime := now
            parser := { pstate := .waitSyn, buf := m, index := 0, cmd := cmd, expectedLen := tableLen cmd } } with
          diags := s.diags ++ [⟨c, .checksumError⟩] }

/-- R70, R85: in every state a frame of any of the eight rows is its wire bytes received one CH_RX after another, with what
they answer. -/
def Obligations.FrameRowsAreTheirBytes : Prop :=
  ∀ (cmd : Byte) (c : Chan) (now : Nat) (f : WireFrame) (s : State),
    exec (frameRow cmd c now f) s =
      receive c now ([0x02#8, f.addrHi, f.addrLo, cmd] ++ f.payload ++ [f.checksum]) s

/-- R146, R213: a frame of any of the eight rows, of any length, that arrives in Idle is discarded whole. -/
def Obligations.FramesInIdleAreDiscarded : Prop :=
  ∀ (cmd : Byte) (c : Chan) (now : Nat) (f : WireFrame) (s : State), s.initialized = true → (s.ch c).schedState = .idle →
    exec (frameRow cmd c now f) s = .next s

/-! ## The whole machine -/

/-- R30 to R35, R40, R50, R164: the invariant (R40's table, the buffers' form and size, the configuration constraints after INIT) is kept
by every step from every state that meets it. -/
def Obligations.EveryStepKeepsTheInvariant : Prop :=
  ∀ s t : State, s.Inv → step s = .next t → t.Inv

/-- The invariant holds at reset (log entries 1 and 2 name the reset values the spec leaves open). -/
def Obligations.ResetMeetsTheInvariant : Prop :=
  State.reset.Inv ∧ State.reset.initialized = false ∧ ReceivedInThePast State.reset

/-- R130, R136, R212 (log entry 12): the clock of a run never goes back, every byte was received at or before it, and so no operation's
`now` is earlier than a channel's `last_rx_time`: the gap of R136 is never negative. -/
def Obligations.TheClockNeverGoesBack : Prop :=
  ∀ s t : State, ReceivedInThePast s → step s = .next t →
    s.clock ≤ t.clock ∧ ReceivedInThePast t ∧
    ∀ i rest now, decode s.script = .ok (i, rest) → timeOf i = some now → t.clock = now ∧ ∀ c, (s.ch c).lastRxTime ≤ now

/-- R173: from every state that meets the invariant no operation faults, and after INIT every byte, every received frame, every tick of one
channel or of both with fitting answers, every SEND_COMMAND with a fitting answer and every parser reset has a step. -/
def Obligations.NoInputStopsTheBlock : Prop :=
  ∀ s : State, s.Inv →
    (∀ i f, exec i s ≠ .fault f) ∧
    (s.initialized = true →
      (∀ c b now, ∃ t, exec (.chRx c b now) s = .next t) ∧
      (∀ c b, ∃ t, exec (.parserConsume c b) s = .next t) ∧
      (∀ c now a, AnswerFits (s.ch c) now a → ∃ t, exec (.chTick c now a) s = .next t) ∧
      (∀ cmd c now f, ∃ t, exec (frameRow cmd c now f) s = .next t) ∧
      (∀ now a0 a1, AnswerFits s.ch0 now a0 → AnswerFits s.ch1 now a1 → ∃ t, exec (.orchTick now a0 a1) s = .next t) ∧
      (∀ c addr cmd payload a, (a ≠ none ↔ (1 ≤ addr ∧ addr ≤ 32) ∧ payload.length ≤ 22) →
        ∃ t, exec (.sendCommand c addr cmd payload a) s = .next t) ∧
      (∀ c, ∃ t, exec (.parserReset c) s = .next t))

/-- R26, R67, R181: once the block is initialized, no operation writes any field of the configuration or undoes the construction. -/
def Obligations.ConfigurationIsFixedAfterInit : Prop :=
  ∀ (i : Instr) (s t : State), s.initialized = true → exec i s = .next t →
    t.initialized = true ∧ ∀ c, t.cfg c = s.cfg c

/-- R43: an operation that names one channel leaves the other channel's configuration, runtime record, sends, results and events as they
were. -/
def Obligations.ChannelsAreDisjoint : Prop :=
  ∀ (i : Instr) (s t : State) (c d : Chan), chanOf i = some c → d ≠ c → exec i s = .next t →
    t.cfg d = s.cfg d ∧ t.ch d = s.ch d ∧ sendsOf t d = sendsOf s d ∧ resultsOf t d = resultsOf s d ∧ diagsOf t d = diagsOf s d

/-- R64, R166: what an operation that names one channel does to it depends on nothing of the other channel: from two states that agree on
that channel, both have a step or neither, and the channel's record and what it sends, delivers, emits and returns are the same. -/
def Obligations.ChannelBehaviourIgnoresTheOtherChannel : Prop :=
  ∀ (i : Instr) (s s' : State) (c : Chan), chanOf i = some c → s.initialized = s'.initialized → s.capacity = s'.capacity →
    s.cfg c = s'.cfg c → s.ch c = s'.ch c →
    (∀ t, exec i s = .next t → ∃ t', exec i s' = .next t' ∧ t.ch c = t'.ch c ∧ t.cfg c = t'.cfg c ∧
      ∃ sent delivered emitted values,
        t.sends = s.sends ++ sent ∧ t'.sends = s'.sends ++ sent ∧
        t.results = s.results ++ delivered ∧ t'.results = s'.results ++ delivered ∧
        t.diags = s.diags ++ emitted ∧ t'.diags = s'.diags ++ emitted ∧
        t.returned = s.returned ++ values ∧ t'.returned = s'.returned ++ values) ∧
    (∀ r, exec i s = .refused r → exec i s' = .refused r) ∧
    (∀ f, exec i s = .fault f → exec i s' = .fault f)

/-- R15, R54, R61: an operation only appends to the four streams, and leaves CAPACITY as it was, and with it the model's own queue and
clock (log entries 3, 7, 8 and 12). -/
def Obligations.StreamsOnlyGrow : Prop :=
  ∀ (i : Instr) (s t : State), exec i s = .next t →
    s.sends <+: t.sends ∧ s.results <+: t.results ∧ s.diags <+: t.diags ∧ s.returned <+: t.returned ∧
    t.capacity = s.capacity ∧ t.script = s.script ∧ t.clock = s.clock

/-- R15, R175, R188: no operation reads the Diag stream, nor the other three: replacing what has been observed so far changes nothing in
what an operation does. -/
def Obligations.ObservationsAreNeverRead : Prop :=
  ∀ (i : Instr) (s t : State) (xs : List SendRecord) (ys : List ResultRecord) (zs : List DiagRecord) (vs : List Returned),
    exec i s = .next t →
    ∃ sent delivered emitted values,
      t.sends = s.sends ++ sent ∧ t.results = s.results ++ delivered ∧ t.diags = s.diags ++ emitted ∧
      t.returned = s.returned ++ values ∧
      exec i { s with sends := xs, results := ys, diags := zs, returned := vs } =
        .next { t with sends := xs ++ sent, results := ys ++ delivered, diags := zs ++ emitted, returned := vs ++ values }

/-- R44 with R135 (log entry 17): which runtime fields each operation but INIT may write, and in which case: ticks of one channel and of both
(CH_TICK's two columns), received bytes and frames (CH_RX's two columns), and SEND_COMMAND, BUILD_FRAME, CHECKSUM, which write none;
PARSER_CONSUME writes the parser alone and PARSER_RESET its `pstate` and `index` alone. An operation on one channel writes none of the
other's. -/
def Obligations.FieldsChangeOnlyByTheirWriters : Prop :=
  ∀ s t : State,
    (∀ now a0 a1, exec (.orchTick now a0 a1) s = .next t → TickWrites s.ch0 t.ch0 now a0 ∧ TickWrites s.ch1 t.ch1 now a1) ∧
    (∀ c now a, exec (.chTick c now a) s = .next t → TickWrites (s.ch c) (t.ch c) now a ∧ ∀ d, d ≠ c → t.ch d = s.ch d) ∧
    (∀ c b now, exec (.chRx c b now) s = .next t → RxWrites (s.ch c) (t.ch c) ∧ ∀ d, d ≠ c → t.ch d = s.ch d) ∧
    (∀ cmd c now f, exec (frameRow cmd c now f) s = .next t → RxWrites (s.ch c) (t.ch c) ∧ ∀ d, d ≠ c → t.ch d = s.ch d) ∧
    (∀ c addr cmd payload a, exec (.sendCommand c addr cmd payload a) s = .next t → ∀ d, t.ch d = s.ch d) ∧
    (∀ addr cmd payload outCap, exec (.buildFrame addr cmd payload outCap) s = .next t → ∀ d, t.ch d = s.ch d) ∧
    (∀ bytes, exec (.checksum bytes) s = .next t → ∀ d, t.ch d = s.ch d) ∧
    (∀ c b, exec (.parserConsume c b) s = .next t →
      (∃ p, t.ch c = { s.ch c with parser := p }) ∧ ∀ d, d ≠ c → t.ch d = s.ch d) ∧
    (∀ c, exec (.parserReset c) s = .next t →
      t.ch c = { s.ch c with parser := cleared (s.ch c).parser } ∧ ∀ d, d ≠ c → t.ch d = s.ch d)

/-- R45, R50, R52, R110, R164: every byte of the caller's buffer is unchanged but by BUILD_FRAME, and then but for the frame's bytes; every
byte of the transmit buffer but by SEND_COMMAND, likewise; every byte of a parser's buffer but by an operation that feeds that parser, and
then but for the offset `index` (CH_RX, PARSER_CONSUME) or the frame's length of offsets from `index` on (a frame row), always below
CAPACITY. -/
def Obligations.BytesChangeOnlyByTheirWriters : Prop :=
  ∀ (i : Instr) (s t : State), s.Inv → s.initialized = true → exec i s = .next t →
    ((∀ addr cmd payload outCap, i ≠ .buildFrame addr cmd payload outCap) → ∀ k, t.outBuf.read k = s.outBuf.read k) ∧
    (∀ addr cmd payload outCap, i = .buildFrame addr cmd payload outCap →
      ∀ k, 5 + payload.length ≤ k → t.outBuf.read k = s.outBuf.read k) ∧
    ((∀ c addr cmd payload a, i ≠ .sendCommand c addr cmd payload a) → ∀ k, t.txBuf.read k = s.txBuf.read k) ∧
    (∀ c addr cmd payload a, i = .sendCommand c addr cmd payload a →
      ∀ k, 5 + payload.length ≤ k → t.txBuf.read k = s.txBuf.read k) ∧
    (∀ c k, fedBy i ≠ some c ∨ s.capacity ≤ k → (t.ch c).parser.buf.read k = (s.ch c).parser.buf.read k) ∧
    (∀ c b now, i = .chRx c b now ∨ i = .parserConsume c b →
      ∀ k, k ≠ (s.ch c).parser.index → (t.ch c).parser.buf.read k = (s.ch c).parser.buf.read k) ∧
    (∀ cmd c now f, i = frameRow cmd c now f →
      ∀ k, k < (s.ch c).parser.index ∨ (s.ch c).parser.index + (5 + f.payload.length) ≤ k →
        (t.ch c).parser.buf.read k = (s.ch c).parser.buf.read k)

/-- R47: the fields R47 names are never read before they are written: two states that agree on the rest stay in agreement, and show the
same observation, under every operation the host reaches the block by (PARSER_CONSUME on its own, an internal step of CH_RX, apart). -/
def Obligations.StaleFieldsAreUnobservable : Prop :=
  ∀ (i : Instr) (s s' t : State), (∀ c b, i ≠ .parserConsume c b) → Agrees s s' →
    s.Inv → s'.Inv → exec i s = .next t → ∃ t', exec i s' = .next t' ∧ Agrees t t'
end

