-- ==== Sys2Proof/Laws/Memory.lean ====
section
/-! SUPPORT. The buffers: every operation keeps the canonical form and the size, and a read after a write gives the byte written at its
own offset and the old byte at every other (R50, R51, R52). -/

namespace Sys2Proof.Machine

theorem wf_nil : Memory.wf [] = true := rfl

/-- The head cell holds a byte other than 0x00 and the rest is in canonical form. -/
theorem wf_tail {a : Nat} {v : Byte} {m : Memory} (h : Memory.wf ((a, v) :: m) = true) : v ≠ 0x00#8 ∧ Memory.wf m = true := by
  cases m with
  | nil => simpa [Memory.wf, Memory.sorted] using h
  | cons x m =>
    simp only [Memory.wf, Memory.sorted, List.all_cons, Bool.and_eq_true, bne_iff_ne] at h ⊢
    exact ⟨h.2.1, h.1.2, h.2.2⟩

/-- Every cell after the head stands above it. -/
theorem wf_above {a : Nat} {v : Byte} {m : Memory} (h : Memory.wf ((a, v) :: m) = true) : ∀ x ∈ m, a < x.1 := by
  induction m generalizing a v with
  | nil => simp
  | cons y m ih =>
    have hy : a < y.1 := by simp_all [Memory.wf, Memory.sorted]
    have hm := ih (wf_tail h).2
    intro x hx
    rcases List.mem_cons.1 hx with rfl | hx
    · exact hy
    · exact Nat.lt_trans hy (hm x hx)

/-- A head cell below a canonical rest makes a canonical memory. -/
theorem wf_cons {a : Nat} {v : Byte} {m : Memory} (hv : v ≠ 0x00#8) (hm : Memory.wf m = true) (ha : ∀ x ∈ m, a < x.1) :
    Memory.wf ((a, v) :: m) = true := by
  cases m with
  | nil => simp [Memory.wf, Memory.sorted, hv]
  | cons y m =>
    simp only [Memory.wf, Memory.sorted, List.all_cons, Bool.and_eq_true, bne_iff_ne, decide_eq_true_eq] at hm ⊢
    exact ⟨⟨ha y (by simp), hm.1⟩, hv, hm.2⟩

/-- An offset below every cell reads 0x00. -/
theorem read_below {m : Memory} {i : Nat} (h : ∀ x ∈ m, i < x.1) : m.read i = 0x00#8 := by
  induction m with
  | nil => rfl
  | cons x m ih =>
    have hx : i < x.1 := h x (by simp)
    have : i ≠ x.1 := by omega
    simp only [Memory.read, if_neg this]
    exact ih fun y hy => h y (by simp [hy])

/-- Cells of a written memory are old cells or the written one. -/
theorem mem_write {m : Memory} {i : Nat} {v : Byte} {x : Host.Cell} (h : x ∈ m.write i v) : x ∈ m ∨ x = (i, v) := by
  induction m with
  | nil =>
    unfold Memory.write at h
    split at h <;> simp_all
  | cons y m ih =>
    unfold Memory.write at h
    split at h
    · split at h
      · exact .inl h
      · rcases List.mem_cons.1 h with rfl | h
        · exact .inr rfl
        · exact .inl h
    · split at h
      · split at h
        · exact .inl (List.mem_cons_of_mem _ h)
        · rcases List.mem_cons.1 h with rfl | h
          · exact .inr rfl
          · exact .inl (List.mem_cons_of_mem _ h)
      · rcases List.mem_cons.1 h with rfl | h
        · exact .inl (by simp)
        · exact (ih h).imp_left (List.mem_cons_of_mem _)

/-- A write keeps the canonical form. -/
theorem wf_write {m : Memory} (h : m.wf = true) (i : Nat) (v : Byte) : (m.write i v).wf = true := by
  induction m with
  | nil =>
    unfold Memory.write
    split
    · rfl
    · exact wf_cons ‹_› rfl (by simp)
  | cons y m ih =>
    obtain ⟨a, w⟩ := y
    obtain ⟨hw, hm⟩ := wf_tail h
    have hab := wf_above h
    unfold Memory.write
    split
    · split
      · exact h
      · refine wf_cons ‹_› h fun x hx => ?_
        rcases List.mem_cons.1 hx with rfl | hx
        · assumption
        · have := hab x hx
          omega
    · split
      · split
        · exact hm
        · exact wf_cons ‹_› hm fun x hx => by have := hab x hx; omega
      · refine wf_cons hw (ih hm) fun x hx => ?_
        rcases mem_write hx with hx | rfl
        · exact hab x hx
        · simp only
          omega

/-- A read after a write: the byte written at its offset, the old byte everywhere else (R51). -/
theorem read_write {m : Memory} (h : m.wf = true) (i j : Nat) (v : Byte) :
    (m.write i v).read j = if j = i then v else m.read j := by
  induction m with
  | nil =>
    unfold Memory.write
    split <;> split <;> simp_all [Memory.read]
  | cons y m ih =>
    obtain ⟨a, w⟩ := y
    obtain ⟨hw, hm⟩ := wf_tail h
    have hab := wf_above h
    unfold Memory.write
    split
    · have hi : Memory.read ((a, w) :: m) i = 0x00#8 := read_below fun x hx => by
        rcases List.mem_cons.1 hx with rfl | hx
        · assumption
        · have := hab x hx
          omega
      split
      · split
        · simp_all
        · rfl
      · simp only [Memory.read]
    · split
      · subst i
        have hi : Memory.read m a = 0x00#8 := read_below hab
        split
        · by_cases hj : j = a <;> simp_all [Memory.read]
        · by_cases hj : j = a <;> simp_all [Memory.read]
      · simp only [Memory.read, ih hm]
        split <;> split <;> first | rfl | omega

/-- A write below a size keeps a memory within it. -/
theorem within_write {m : Memory} {n i : Nat} (h : m.within n) (hi : i < n) (v : Byte) : (m.write i v).within n := fun x hx => by
  rcases mem_write hx with hx | rfl
  · exact h x hx
  · exact hi

/-- Writing a list of bytes keeps the canonical form. -/
theorem wf_writeBytes {m : Memory} (h : m.wf = true) (i : Nat) (vs : List Byte) : (m.writeBytes i vs).wf = true := by
  induction vs generalizing m i with
  | nil => exact h
  | cons v vs ih => exact ih (wf_write h i v) (i + 1)

/-- Writing a list of bytes below a size keeps a memory within it. -/
theorem within_writeBytes {m : Memory} {n i : Nat} {vs : List Byte} (h : m.within n) (hi : i + vs.length ≤ n) :
    (m.writeBytes i vs).within n := by
  induction vs generalizing m i with
  | nil => exact h
  | cons v vs ih =>
    simp only [List.length_cons] at hi
    exact ih (within_write h (by omega) v) (by omega)

/-- A read after a list of bytes is written: the list's byte at its offset, the old byte outside (R52). -/
theorem read_writeBytes {m : Memory} (h : m.wf = true) (i j : Nat) (vs : List Byte) :
    (m.writeBytes i vs).read j = if i ≤ j ∧ j < i + vs.length then vs.getD (j - i) 0x00#8 else m.read j := by
  induction vs generalizing m i with
  | nil =>
    simp only [Memory.writeBytes, List.length_nil]
    split <;> first | rfl | omega
  | cons v vs ih =>
    simp only [Memory.writeBytes, ih (wf_write h i v), read_write h, List.length_cons]
    by_cases h1 : j = i
    · subst h1
      rw [if_neg (by omega), if_pos rfl, if_pos (by omega)]
      simp
    · by_cases h2 : i + 1 ≤ j ∧ j < i + 1 + vs.length
      · rw [if_pos h2, if_pos (by omega)]
        obtain ⟨k, hk⟩ : ∃ k, j - i = k + 1 := ⟨j - i - 1, by omega⟩
        rw [hk, List.getD_cons_succ]
        congr 1
        omega
      · rw [if_neg h2, if_neg h1, if_neg (by omega)]

/-- A list of bytes read is the bytes at its offsets. -/
theorem readBytes_length (m : Memory) (i n : Nat) : (m.readBytes i n).length = n := by
  induction n generalizing i with
  | zero => rfl
  | succ n ih => simp [Memory.readBytes, ih]

/-- `BufRead` at offsets below CAPACITY reads the buffer's bytes and changes nothing (R50, R51). -/
theorem bufReads_ok {c : Chan} {cap : Nat} {p : ParserState} {i n : Nat} (h : i + n ≤ cap ∨ n = 0) :
    bufReads c cap p i n = .ok (p.buf.readBytes i n) := by
  induction n generalizing i with
  | zero => rfl
  | succ n ih =>
    have hi : i < cap := by omega
    simp [bufReads, bufRead, hi, ih (i := i + 1) (by omega), Memory.readBytes]

/-- What `bufReads` can answer: the buffer's bytes, or the fault of an offset that does not exist. -/
theorem bufReads_cases (c : Chan) (cap : Nat) (p : ParserState) (i n : Nat) :
    bufReads c cap p i n = .ok (p.buf.readBytes i n) ∨ ∃ j, cap ≤ j ∧ bufReads c cap p i n = .error (.noSuchOffset c j) := by
  induction n generalizing i with
  | zero => exact .inl rfl
  | succ n ih =>
    by_cases hi : i < cap
    · rcases ih (i + 1) with h | ⟨j, hj, h⟩
      · exact .inl (by simp [bufReads, bufRead, hi, h, Memory.readBytes])
      · exact .inr ⟨j, hj, by simp [bufReads, bufRead, hi, h]⟩
    · exact .inr ⟨i, by omega, by simp [bufReads, bufRead, hi]⟩

/-- The buffers of the reset state are in canonical form. -/
theorem reset_buffers_wf :
    (∀ c, (State.reset.ch c).parser.buf.wf = true) ∧ State.reset.outBuf.wf = true ∧ State.reset.txBuf.wf = true :=
  ⟨fun c => by cases c <;> rfl, rfl, rfl⟩

end Sys2Proof.Machine
end

