-- ==== Sys2Proof/Laws/Codec.lean ====
section
/-! SUPPORT. CHECKSUM and BUILD_FRAME: what each can answer. -/

namespace Sys2Proof.Machine

/-- An accumulator other than 0x00 comes out by exclusive-or. -/
theorem foldl_xor (acc : Byte) (xs : List Byte) : xs.foldl (fun a b => a ^^^ b) acc = acc ^^^ checksumOf xs := by
  induction xs generalizing acc with
  | nil => simp [checksumOf]
  | cons x xs ih =>
    simp only [checksumOf, List.foldl_cons]
    rw [ih, ih (0x00#8 ^^^ x)]
    simp [BitVec.xor_assoc]

theorem checksumOf_nil : checksumOf [] = 0x00#8 := rfl

theorem checksumOf_cons (x : Byte) (xs : List Byte) : checksumOf (x :: xs) = x ^^^ checksumOf xs := by
  show List.foldl (fun a b => a ^^^ b) (0x00#8 ^^^ x) xs = _
  rw [foldl_xor]
  simp

theorem checksumOf_append (xs ys : List Byte) : checksumOf (xs ++ ys) = checksumOf xs ^^^ checksumOf ys := by
  simp only [checksumOf, List.foldl_append]
  exact foldl_xor _ ys

/-- A legal station address (R7). -/
theorem addressLegal_iff (addr : Nat) : addressLegal addr = true ↔ 1 ≤ addr ∧ addr ≤ 32 := by
  simp only [addressLegal, Bool.and_eq_true, decide_eq_true_eq]

/-- BUILD_FRAME's arguments are valid (R92). -/
theorem validate_eq_none_iff (addr n outCap : Nat) : validate addr n outCap = none ↔ (1 ≤ addr ∧ addr ≤ 32) ∧ n ≤ 22 ∧ 5 + n ≤ outCap := by
  unfold validate
  by_cases h : 1 ≤ addr ∧ addr ≤ 32
  · rw [(addressLegal_iff addr).2 h]
    have hm : Config.maxPayload = 22 := rfl
    simp only [Bool.true_eq_false, if_false, hm]
    split
    · simp only [reduceCtorEq, false_iff]
      omega
    · split
      · simp only [reduceCtorEq, false_iff]
        omega
      · simp only [true_iff]
        omega
  · have h2 : addressLegal addr = false := by
      rw [← Bool.not_eq_true, addressLegal_iff]
      exact h
    simp [h2, h]

theorem frameBytes_length (addr : Nat) (cmd : Byte) (payload : List Byte) : (frameBytes addr cmd payload).length = 5 + payload.length := by
  simp [frameBytes, frameBody]
  omega

/-- BUILD_FRAME into a buffer either changes nothing or writes the frame from offset 0 (R52, R92). -/
theorem buildInto_cases (addr : Nat) (cmd : Byte) (payload : List Byte) (outCap : Nat) (out : Memory) :
    (∃ r, validate addr payload.length outCap = some r ∧ buildInto addr cmd payload outCap out = (.validationError r, out)) ∨
    (validate addr payload.length outCap = none ∧
      buildInto addr cmd payload outCap out = (.len (5 + payload.length), out.writeBytes 0 (frameBytes addr cmd payload))) := by
  unfold buildInto
  cases h : validate addr payload.length outCap with
  | some r => exact .inl ⟨r, rfl, by simp⟩
  | none => exact .inr ⟨rfl, by simp⟩

/-- BUILD_FRAME keeps a buffer canonical. -/
theorem buildInto_wf {out : Memory} (h : out.wf = true) (addr : Nat) (cmd : Byte) (payload : List Byte) (outCap : Nat) :
    (buildInto addr cmd payload outCap out).2.wf = true := by
  rcases buildInto_cases addr cmd payload outCap out with ⟨r, -, h2⟩ | ⟨-, h2⟩ <;> rw [h2]
  · exact h
  · exact wf_writeBytes h 0 _

/-- BUILD_FRAME writes within the capacity it is given (R52). -/
theorem buildInto_within {out : Memory} {outCap : Nat} (h : out.within outCap) (addr : Nat) (cmd : Byte) (payload : List Byte) :
    (buildInto addr cmd payload outCap out).2.within outCap := by
  rcases buildInto_cases addr cmd payload outCap out with ⟨r, -, h2⟩ | ⟨hv, h2⟩ <;> rw [h2]
  · exact h
  · refine within_writeBytes h ?_
    rw [frameBytes_length]
    have := (validate_eq_none_iff _ _ _).1 hv
    omega

end Sys2Proof.Machine
end

