-- ==== Sys2Proof/Laws/Decode.lean ====
section
/-! SUPPORT. Each operand reader reads back what its writer wrote and leaves the bytes after it. -/

namespace Sys2Proof

@[simp] theorem getByte_cons (b : Byte) (r : List Byte) : getByte (b :: r) = .ok (b, r) := rfl

@[simp] theorem getBytes_append (xs r : List Byte) : getBytes xs.length (xs ++ r) = .ok (xs, r) := by
  induction xs with
  | nil => rfl
  | cons x xs ih => simp [getBytes, ih]

/-- With enough fuel, the bytes of a number read back as the number. -/
theorem getNat_natBytesFuel (fuel n : Nat) (h : n ≤ fuel) (r : List Byte) : getNat (natBytesFuel fuel n ++ r) = .ok (n, r) := by
  induction fuel generalizing n with
  | zero =>
    obtain rfl : n = 0 := by omega
    rfl
  | succ fuel ih =>
    unfold natBytesFuel
    split
    · have h2 : (BitVec.ofNat 8 n).toNat = n := by
        rw [BitVec.toNat_ofNat]
        omega
      simp [getNat, *]
    · have h2 : (BitVec.ofNat 8 (128 + n % 128)).toNat = 128 + n % 128 := by
        rw [BitVec.toNat_ofNat]
        omega
      have h3 : ¬ 128 + n % 128 < 128 := by omega
      have h4 : 128 + n % 128 - 128 + 128 * (n / 128) = n := by omega
      simp only [List.cons_append, getNat, h2, h3, if_false, ih (n / 128) (by omega), h4]

@[simp] theorem getNat_natBytes (n : Nat) (r : List Byte) : getNat (natBytes n ++ r) = .ok (n, r) :=
  getNat_natBytesFuel n n (Nat.le_refl n) r

@[simp] theorem getChan_chanByte (c : Chan) (r : List Byte) : getChan (chanByte c :: r) = .ok (c, r) := by cases c <;> rfl

@[simp] theorem getAnswer_answerByte (a : Option SendResult) (r : List Byte) : getAnswer (answerByte a :: r) = .ok (a, r) := by
  rcases a with _ | _ | _ <;> rfl

@[simp] theorem getList_listBytes (xs r : List Byte) : getList (listBytes xs ++ r) = .ok (xs, r) := by
  simp [getList, listBytes, readThen]

@[simp] theorem getGap_gapBytes (g : Option Nat) (r : List Byte) : getGap (gapBytes g ++ r) = .ok (g, r) := by
  cases g with
  | none => rfl
  | some g => simp [gapBytes, getGap]

@[simp] theorem getConfig_configBytes (k : ChannelConfig) (r : List Byte) : getConfig (configBytes k ++ r) = .ok (k, r) := by
  simp [getConfig, configBytes, readThen, readDone, List.append_assoc]

/-- The rest of a wire frame reads back when its payload has the length its command byte selects (R79). -/
theorem getFrame_frameRest (cmd : Byte) (c : Chan) (now : Nat) (f : WireFrame) (h : f.payload.length = Machine.lenOf cmd)
    (r : List Byte) : getFrame cmd (frameRest c now f ++ r) = .ok ((c, now, f), r) := by
  simp [getFrame, frameRest, readThen, readDone, List.append_assoc, ← h]

/-- A command byte that has no row of its own selects no payload (R77). -/
theorem lenOf_of_not_listed {cmd : Byte} (h : Machine.listedCmd cmd = false) : Machine.lenOf cmd = 0 := by
  simp only [Machine.listedCmd, Bool.or_eq_false_iff, beq_eq_false_iff_ne] at h
  simp [Machine.lenOf, h]

/-- No command selects more than 22 payload bytes (R35, R76). -/
theorem lenOf_le (cmd : Byte) : Machine.lenOf cmd ≤ 22 := by
  unfold Machine.lenOf
  repeat' split
  all_goals omega

end Sys2Proof
end

