-- ==== Sys2Proof/Laws/Parser.lean ====
section
/-! SUPPORT. PARSER_CONSUME: everything it can answer. -/

namespace Sys2Proof.Machine

/-- What a pushed byte makes of the pushed parser, by the state it was pushed in (R101 to R105). -/
def advance (st : PState) (b : Byte) (q : ParserState) : ParserState :=
  match st with
  | .waitSyn => { q with pstate := .waitAddrHi }
  | .waitAddrHi => { q with pstate := .waitAddrLo }
  | .waitAddrLo => { q with pstate := .waitCmd }
  | .waitCmd => { q with cmd := b, expectedLen := lenOf b, pstate := if 0 < lenOf b then .waitData else .waitChecksum }
  | .waitData => if q.index = 4 + q.expectedLen then { q with pstate := .waitChecksum } else q
  | .waitChecksum => q

/-- The byte is one the parser buffers: any in the four states after the sync marker and before the checksum, the sync marker in
WaitSyn. -/
def buffers (p : ParserState) (b : Byte) : Prop :=
  match p.pstate with
  | .waitSyn => b = Config.sync
  | .waitAddrHi => True
  | .waitAddrLo => True
  | .waitCmd => True
  | .waitData => True
  | .waitChecksum => False

/-- The parser with a byte pushed. -/
def pushed (p : ParserState) (b : Byte) : ParserState := { p with buf := p.buf.write p.index b, index := p.index + 1 }

/-- With room, a push writes at `index` and moves it on (R110). -/
theorem pushThen_room {cap : Nat} {p : ParserState} (h : p.index < cap) (b : Byte) (go : ParserState → ParserState) :
    pushThen cap p b go = (.inProgress, go (pushed p b)) := by
  have h2 : bufPush cap p b = some (pushed p b) := if_neg (by omega)
  rw [pushThen, h2]

/-- With no room, a push resets the parser and writes nothing (R110). -/
theorem pushThen_full {cap : Nat} {p : ParserState} (h : cap ≤ p.index) (b : Byte) (go : ParserState → ParserState) :
    pushThen cap p b go = (.bufferOverflow, resetParser p) := by
  have h2 : bufPush cap p b = none := if_pos h
  rw [pushThen, h2]

/-- A buffered byte with room: InProgress, pushed, advanced (R101 to R105). -/
theorem consume_push {c : Chan} {cap : Nat} {p : ParserState} {b : Byte} (hb : buffers p b) (h : p.index < cap) :
    consume c cap p b = .ok (.inProgress, advance p.pstate b (pushed p b)) := by
  unfold buffers at hb
  unfold consume
  split <;> simp_all [consumeWaitSyn, consumeWaitAddrHi, consumeWaitAddrLo, consumeWaitCmd, consumeWaitData, pushThen_room h, advance]

/-- A buffered byte with no room: BufferOverflow and a reset (R110). -/
theorem consume_overflow {c : Chan} {cap : Nat} {p : ParserState} {b : Byte} (hb : buffers p b) (h : cap ≤ p.index) :
    consume c cap p b = .ok (.bufferOverflow, resetParser p) := by
  unfold buffers at hb
  unfold consume
  split <;> simp_all [consumeWaitSyn, consumeWaitAddrHi, consumeWaitAddrLo, consumeWaitCmd, consumeWaitData, pushThen_full h]

/-- Noise in WaitSyn changes nothing (R101). -/
theorem consume_noise {c : Chan} {cap : Nat} {p : ParserState} {b : Byte} (hp : p.pstate = .waitSyn) (hb : b ≠ Config.sync) :
    consume c cap p b = .ok (.inProgress, p) := by
  simp [consume, hp, consumeWaitSyn, hb]

/-- WaitChecksum with every buffered byte readable: Success or ChecksumError by comparison, reset either way (R106, R107, R108). -/
theorem consume_checksum {c : Chan} {cap : Nat} {p : ParserState} {b : Byte} (hp : p.pstate = .waitChecksum) (h2 : 2 < cap)
    (h : p.index ≤ cap) :
    consume c cap p b = .ok (if b = checksumOf (p.buf.readBytes 1 (p.index - 1)) then
        .success ⟨p.buf.read 2, p.cmd, p.buf.readBytes 4 (p.index - 4)⟩ else .checksumError, resetParser p) := by
  have h3 : bufReads c cap p 1 (p.index - 1) = .ok (p.buf.readBytes 1 (p.index - 1)) := bufReads_ok (by omega)
  have h4 : bufReads c cap p 4 (p.index - 4) = .ok (p.buf.readBytes 4 (p.index - 4)) := bufReads_ok (by omega)
  simp only [consume, hp, consumeWaitChecksum, h3]
  split <;> simp [parsedFrame, bufRead, h2, h4]

/-- Everything PARSER_CONSUME can answer, if it answers (R100). -/
theorem consume_cases {c : Chan} {cap : Nat} {p q : ParserState} {b : Byte} {o : ParserOutcome} (h : consume c cap p b = .ok (o, q)) :
    (p.pstate = .waitSyn ∧ b ≠ Config.sync ∧ o = .inProgress ∧ q = p) ∨
    (buffers p b ∧ p.index < cap ∧ o = .inProgress ∧ q = advance p.pstate b (pushed p b)) ∨
    (buffers p b ∧ cap ≤ p.index ∧ o = .bufferOverflow ∧ q = resetParser p) ∨
    (p.pstate = .waitChecksum ∧ b = checksumOf (p.buf.readBytes 1 (p.index - 1)) ∧
      o = .success ⟨p.buf.read 2, p.cmd, p.buf.readBytes 4 (p.index - 4)⟩ ∧ q = resetParser p) ∨
    (p.pstate = .waitChecksum ∧ b ≠ checksumOf (p.buf.readBytes 1 (p.index - 1)) ∧ o = .checksumError ∧ q = resetParser p) := by
  by_cases hb : buffers p b
  · by_cases hi : p.index < cap
    · rw [consume_push hb hi] at h
      cases h
      exact .inr (.inl ⟨hb, hi, rfl, rfl⟩)
    · rw [consume_overflow hb (by omega)] at h
      cases h
      exact .inr (.inr (.inl ⟨hb, by omega, rfl, rfl⟩))
  · by_cases hs : p.pstate = .waitSyn
    · have hne : b ≠ Config.sync := by simpa [buffers, hs] using hb
      rw [consume_noise hs hne] at h
      cases h
      exact .inl ⟨hs, hne, rfl, rfl⟩
    · have hc : p.pstate = .waitChecksum := by
        cases hp : p.pstate <;> simp_all [buffers]
      right; right; right
      simp only [consume, hc, consumeWaitChecksum] at h
      rcases bufReads_cases c cap p 1 (p.index - 1) with h1 | ⟨j, -, h1⟩
      · rw [h1] at h
        simp only at h
        split at h
        · left
          rcases bufReads_cases c cap p 4 (p.index - 4) with h4 | ⟨j, -, h4⟩ <;> by_cases h2 : 2 < cap <;>
            simp_all [parsedFrame, bufRead]
        · right
          simp_all
      · rw [h1] at h
        simp at h

/-- PARSER_CONSUME answers in every state that meets the parser's invariant (R173). -/
theorem consume_ok {c : Chan} {cap : Nat} {p : ParserState} {b : Byte} (h : p.Inv cap) : ∃ o q, consume c cap p b = .ok (o, q) := by
  by_cases hb : buffers p b
  · by_cases hi : p.index < cap
    · exact ⟨_, _, consume_push hb hi⟩
    · exact ⟨_, _, consume_overflow hb (by omega)⟩
  · by_cases hs : p.pstate = .waitSyn
    · exact ⟨_, _, consume_noise hs (by simpa [buffers, hs] using hb)⟩
    · have hc : p.pstate = .waitChecksum := by
        cases hp : p.pstate <;> simp_all [buffers]
      have hf : p.index = 4 + p.expectedLen := by
        have := h.indexFits
        simpa [ParserState.indexFits, hc] using this
      have := h.indexCap
      exact ⟨_, _, consume_checksum hc (by omega) (by omega)⟩

theorem resetParser_pstate (p : ParserState) : (resetParser p).pstate = .waitSyn := rfl
theorem resetParser_index (p : ParserState) : (resetParser p).index = 0 := rfl
theorem resetParser_buf (p : ParserState) : (resetParser p).buf = p.buf := rfl
theorem resetParser_cmd (p : ParserState) : (resetParser p).cmd = p.cmd := rfl
theorem resetParser_expectedLen (p : ParserState) : (resetParser p).expectedLen = p.expectedLen := rfl

/-- A terminal outcome leaves the parser reset (R100). -/
theorem consume_terminal {c : Chan} {cap : Nat} {p q : ParserState} {b : Byte} {o : ParserOutcome} (h : consume c cap p b = .ok (o, q))
    (ht : outcomeTerminal o = true) : q = resetParser p := by
  rcases consume_cases h with ⟨-, -, rfl, -⟩ | ⟨-, -, rfl, -⟩ | ⟨-, -, -, rfl⟩ | ⟨-, -, -, rfl⟩ | ⟨-, -, -, rfl⟩ <;>
    first | rfl | cases ht

/-- A reset parser meets the invariant if the parser did: its buffer and lengths are kept (R111). -/
theorem resetParser_inv {cap : Nat} {p : ParserState} (h : p.Inv cap) : (resetParser p).Inv cap where
  bufWf := h.bufWf
  bufWithin := h.bufWithin
  indexCap := Nat.zero_le _
  lenMax := h.lenMax
  indexFits := rfl
  syncFirst := fun hne => absurd rfl hne
  cmdKept := fun hp => by rcases hp with hp | hp <;> cases hp

/-- A pushed and advanced parser meets the invariant if the parser did (R40). -/
theorem advance_inv {cap : Nat} {p : ParserState} {b : Byte} (h : p.Inv cap) (hb : buffers p b) (hi : p.index < cap) :
    (advance p.pstate b (pushed p b)).Inv cap := by
  have hw : (p.buf.write p.index b).wf = true := wf_write h.bufWf _ _
  have hin : (p.buf.write p.index b).within cap := within_write h.bufWithin hi b
  have hr := read_write h.bufWf
  have hfit := h.indexFits
  have hsync := h.syncFirst
  have hcmd := h.cmdKept
  have hl := h.lenMax
  cases hp : p.pstate <;> simp only [hp, ParserState.indexFits, buffers] at hfit hb
  case waitSyn => exact ⟨hw, hin, hi, hl, by simp [advance, pushed, ParserState.indexFits, hfit],
    fun _ => by simp [advance, pushed, hr, hfit, hb], by simp [advance, ParserState.pastCmd]⟩
  case waitAddrHi => exact ⟨hw, hin, hi, hl, by simp [advance, pushed, ParserState.indexFits, hfit],
    fun _ => by simp [advance, pushed, hr, hfit, hsync, hp], by simp [advance, ParserState.pastCmd]⟩
  case waitAddrLo => exact ⟨hw, hin, hi, hl, by simp [advance, pushed, ParserState.indexFits, hfit],
    fun _ => by simp [advance, pushed, hr, hfit, hsync, hp], by simp [advance, ParserState.pastCmd]⟩
  case waitCmd =>
    refine ⟨hw, hin, hi, lenOf_le b, ?_, fun _ => by simp [advance, pushed, hr, hfit, hsync, hp],
      fun _ => by simp [advance, pushed, hr, hfit]⟩
    by_cases hz : 0 < lenOf b
    · simp [advance, pushed, ParserState.indexFits, hfit, hz]
    · simp only [advance, pushed, ParserState.indexFits, hfit, hz, if_false]
      omega
  case waitData =>
    have hc := hcmd (.inl hp)
    have h0 : (p.buf.write p.index b).read 0 = Config.sync := by
      rw [hr, if_neg (by omega)]
      exact hsync (by simp [hp])
    have h3 : (p.buf.write p.index b).read 3 = p.cmd := by
      rw [hr, if_neg (by omega)]
      exact hc.1
    by_cases hz : p.index + 1 = 4 + p.expectedLen
    · have : advance .waitData b (pushed p b) = { pushed p b with pstate := .waitChecksum } := if_pos hz
      rw [this]
      exact ⟨hw, hin, hi, hl, by simpa [pushed, ParserState.indexFits] using hz, fun _ => h0, fun _ => ⟨h3, hc.2⟩⟩
    · have : advance .waitData b (pushed p b) = pushed p b := if_neg hz
      rw [this]
      refine ⟨hw, hin, hi, hl, ?_, fun _ => h0, fun _ => ⟨h3, hc.2⟩⟩
      simp only [pushed, ParserState.indexFits, hp]
      omega

/-- PARSER_CONSUME keeps the parser's invariant (R33, R40). -/
theorem consume_inv {c : Chan} {cap : Nat} {p q : ParserState} {b : Byte} {o : ParserOutcome} (h : p.Inv cap)
    (hc : consume c cap p b = .ok (o, q)) : q.Inv cap := by
  rcases consume_cases hc with ⟨-, -, -, rfl⟩ | ⟨hb, hi, -, rfl⟩ | ⟨-, -, -, rfl⟩ | ⟨-, -, -, rfl⟩ | ⟨-, -, -, rfl⟩
  · exact h
  · exact advance_inv h hb hi
  · exact resetParser_inv h
  · exact resetParser_inv h
  · exact resetParser_inv h

end Sys2Proof.Machine
end

