-- ==== Sys2Proof/Laws/State.lean ====
section
/-! SUPPORT. One lemma per field per update of State, and the update of a channel by its index. -/

namespace Sys2Proof.Machine

section Streams
variable (s : State) (c d : Chan) (f : Frame) (ev : DiagEvent) (bs : List Byte) (a : SendResult) (v : Returned)

@[simp] theorem emitResult_results : (s.emitResult c f).results = s.results ++ [⟨c, f⟩] := rfl
@[simp] theorem emitResult_initialized : (s.emitResult c f).initialized = s.initialized := rfl
@[simp] theorem emitResult_cfg : (s.emitResult c f).cfg d = s.cfg d := by cases d <;> rfl
@[simp] theorem emitResult_ch : (s.emitResult c f).ch d = s.ch d := by cases d <;> rfl
@[simp] theorem emitResult_capacity : (s.emitResult c f).capacity = s.capacity := rfl
@[simp] theorem emitResult_outBuf : (s.emitResult c f).outBuf = s.outBuf := rfl
@[simp] theorem emitResult_txBuf : (s.emitResult c f).txBuf = s.txBuf := rfl
@[simp] theorem emitResult_script : (s.emitResult c f).script = s.script := rfl
@[simp] theorem emitResult_clock : (s.emitResult c f).clock = s.clock := rfl
@[simp] theorem emitResult_sends : (s.emitResult c f).sends = s.sends := rfl
@[simp] theorem emitResult_diags : (s.emitResult c f).diags = s.diags := rfl
@[simp] theorem emitResult_returned : (s.emitResult c f).returned = s.returned := rfl

@[simp] theorem emitDiag_diags : (s.emitDiag c ev).diags = s.diags ++ [⟨c, ev⟩] := rfl
@[simp] theorem emitDiag_initialized : (s.emitDiag c ev).initialized = s.initialized := rfl
@[simp] theorem emitDiag_cfg : (s.emitDiag c ev).cfg d = s.cfg d := by cases d <;> rfl
@[simp] theorem emitDiag_ch : (s.emitDiag c ev).ch d = s.ch d := by cases d <;> rfl
@[simp] theorem emitDiag_capacity : (s.emitDiag c ev).capacity = s.capacity := rfl
@[simp] theorem emitDiag_outBuf : (s.emitDiag c ev).outBuf = s.outBuf := rfl
@[simp] theorem emitDiag_txBuf : (s.emitDiag c ev).txBuf = s.txBuf := rfl
@[simp] theorem emitDiag_script : (s.emitDiag c ev).script = s.script := rfl
@[simp] theorem emitDiag_clock : (s.emitDiag c ev).clock = s.clock := rfl
@[simp] theorem emitDiag_sends : (s.emitDiag c ev).sends = s.sends := rfl
@[simp] theorem emitDiag_results : (s.emitDiag c ev).results = s.results := rfl
@[simp] theorem emitDiag_returned : (s.emitDiag c ev).returned = s.returned := rfl

@[simp] theorem recordSend_sends : (s.recordSend c bs a).sends = s.sends ++ [⟨c, bs, a⟩] := rfl
@[simp] theorem recordSend_initialized : (s.recordSend c bs a).initialized = s.initialized := rfl
@[simp] theorem recordSend_cfg : (s.recordSend c bs a).cfg d = s.cfg d := by cases d <;> rfl
@[simp] theorem recordSend_ch : (s.recordSend c bs a).ch d = s.ch d := by cases d <;> rfl
@[simp] theorem recordSend_capacity : (s.recordSend c bs a).capacity = s.capacity := rfl
@[simp] theorem recordSend_outBuf : (s.recordSend c bs a).outBuf = s.outBuf := rfl
@[simp] theorem recordSend_txBuf : (s.recordSend c bs a).txBuf = s.txBuf := rfl
@[simp] theorem recordSend_script : (s.recordSend c bs a).script = s.script := rfl
@[simp] theorem recordSend_clock : (s.recordSend c bs a).clock = s.clock := rfl
@[simp] theorem recordSend_results : (s.recordSend c bs a).results = s.results := rfl
@[simp] theorem recordSend_diags : (s.recordSend c bs a).diags = s.diags := rfl
@[simp] theorem recordSend_returned : (s.recordSend c bs a).returned = s.returned := rfl

@[simp] theorem ret_returned : (s.ret v).returned = s.returned ++ [v] := rfl
@[simp] theorem ret_initialized : (s.ret v).initialized = s.initialized := rfl
@[simp] theorem ret_cfg : (s.ret v).cfg d = s.cfg d := by cases d <;> rfl
@[simp] theorem ret_ch : (s.ret v).ch d = s.ch d := by cases d <;> rfl
@[simp] theorem ret_capacity : (s.ret v).capacity = s.capacity := rfl
@[simp] theorem ret_outBuf : (s.ret v).outBuf = s.outBuf := rfl
@[simp] theorem ret_txBuf : (s.ret v).txBuf = s.txBuf := rfl
@[simp] theorem ret_script : (s.ret v).script = s.script := rfl
@[simp] theorem ret_clock : (s.ret v).clock = s.clock := rfl
@[simp] theorem ret_sends : (s.ret v).sends = s.sends := rfl
@[simp] theorem ret_results : (s.ret v).results = s.results := rfl
@[simp] theorem ret_diags : (s.ret v).diags = s.diags := rfl

end Streams

section Channels
variable (s : State) (c d : Chan) (r r' : ChannelRuntime)

@[simp] theorem setCh_ch_self : (s.setCh c r).ch c = r := by cases c <;> rfl
theorem setCh_ch : (s.setCh c r).ch d = if d = c then r else s.ch d := by cases c <;> cases d <;> rfl
theorem setCh_ch_other (h : d ≠ c) : (s.setCh c r).ch d = s.ch d := by rw [setCh_ch, if_neg h]
@[simp] theorem setCh_initialized : (s.setCh c r).initialized = s.initialized := by cases c <;> rfl
@[simp] theorem setCh_cfg : (s.setCh c r).cfg d = s.cfg d := by cases c <;> cases d <;> rfl
@[simp] theorem setCh_cfg0 : (s.setCh c r).cfg0 = s.cfg0 := by cases c <;> rfl
@[simp] theorem setCh_cfg1 : (s.setCh c r).cfg1 = s.cfg1 := by cases c <;> rfl
@[simp] theorem setCh_capacity : (s.setCh c r).capacity = s.capacity := by cases c <;> rfl
@[simp] theorem setCh_outBuf : (s.setCh c r).outBuf = s.outBuf := by cases c <;> rfl
@[simp] theorem setCh_txBuf : (s.setCh c r).txBuf = s.txBuf := by cases c <;> rfl
@[simp] theorem setCh_script : (s.setCh c r).script = s.script := by cases c <;> rfl
@[simp] theorem setCh_clock : (s.setCh c r).clock = s.clock := by cases c <;> rfl
@[simp] theorem setCh_sends : (s.setCh c r).sends = s.sends := by cases c <;> rfl
@[simp] theorem setCh_results : (s.setCh c r).results = s.results := by cases c <;> rfl
@[simp] theorem setCh_diags : (s.setCh c r).diags = s.diags := by cases c <;> rfl
@[simp] theorem setCh_returned : (s.setCh c r).returned = s.returned := by cases c <;> rfl
@[simp] theorem setCh_setCh : (s.setCh c r).setCh c r' = s.setCh c r' := by cases c <;> rfl

/-- Writing back the runtime record a channel already has changes nothing. -/
@[simp] theorem setCh_eta : s.setCh c (s.ch c) = s := by cases c <;> rfl

/-- Two states are equal when they agree on every field, the channels by index. -/
theorem state_ext {s t : State} (hi : s.initialized = t.initialized) (hcfg : ∀ c, s.cfg c = t.cfg c) (hch : ∀ c, s.ch c = t.ch c)
    (hcap : s.capacity = t.capacity) (hout : s.outBuf = t.outBuf) (htx : s.txBuf = t.txBuf) (hscr : s.script = t.script)
    (hclk : s.clock = t.clock) (hs : s.sends = t.sends) (hr : s.results = t.results) (hd : s.diags = t.diags)
    (hret : s.returned = t.returned) : s = t := by
  have h0 := hcfg .ch0
  have h1 := hcfg .ch1
  have h2 := hch .ch0
  have h3 := hch .ch1
  cases s
  cases t
  simp_all [State.cfg, State.ch]

end Channels

end Sys2Proof.Machine
end

