-- ==== Sys2Proof/Laws/Scheduler.lean ====
section
/-! SUPPORT. CH_TICK, CH_RX, an RX line, ORCH_TICK and SEND_COMMAND: everything each can answer. -/

namespace Sys2Proof.Machine

/-- A tick makes a send exactly in Idle with the poll due (R131 to R137). -/
theorem tickSends_iff (ch : ChannelRuntime) (now : Nat) :
    tickSends ch now = true ↔ ch.schedState = .idle ∧ ch.nextPollDeadline ≤ now := by
  unfold tickSends
  split <;> simp_all [pollDue]

/-- The gap condition of R136. -/
theorem gapExceeded_iff (k : ChannelConfig) (ch : ChannelRuntime) (now : Nat) :
    gapExceeded k ch now = true ↔ ∃ g, k.gapTimeout = some g ∧ 1 ≤ ch.parser.index ∧ g < now - ch.lastRxTime := by
  unfold gapExceeded
  split <;> simp_all

/-- The poll frame written out (R81). -/
theorem pollFrame_eq (k : ChannelConfig) :
    pollFrame k = [0x02#8, 0x00#8, k.stationAddr, k.pollCmd, 0x00#8 ^^^ k.stationAddr ^^^ k.pollCmd] := by
  simp [pollFrame, frameBytes, frameBody, Config.sync, Config.addrHiTx, checksumOf]

/-- Everything CH_TICK can do when it is not refused: R132, R133, R134, R135, R136 or R137. -/
theorem tick_cases {c : Chan} {now : Nat} {a : Option SendResult} {s t : State} (h : tick c now a s = .ok t) :
    ((s.ch c).schedState = .idle ∧ (s.ch c).nextPollDeadline ≤ now ∧ a = some .ok ∧ t = pollSent c now s) ∨
    ((s.ch c).schedState = .idle ∧ (s.ch c).nextPollDeadline ≤ now ∧ a = some .fail ∧ t = pollFailed c now s) ∨
    ((s.ch c).schedState = .idle ∧ now < (s.ch c).nextPollDeadline ∧ a = none ∧ t = s) ∨
    ((s.ch c).schedState = .waitingReply ∧ (s.ch c).replyDeadline ≤ now ∧ a = none ∧ t = replyTimedOut c now s) ∨
    ((s.ch c).schedState = .waitingReply ∧ now < (s.ch c).replyDeadline ∧ gapExceeded (s.cfg c) (s.ch c) now = true ∧ a = none ∧
      t = gapReset c s) ∨
    ((s.ch c).schedState = .waitingReply ∧ now < (s.ch c).replyDeadline ∧ gapExceeded (s.cfg c) (s.ch c) now = false ∧ a = none ∧
      t = s) := by
  unfold tick at h
  by_cases hs : tickSends (s.ch c) now = true
  · obtain ⟨h1, h2⟩ := (tickSends_iff _ _).1 hs
    rcases a with _ | _ | _ <;> simp [hs] at h
    · exact .inl ⟨h1, h2, rfl, h.symm⟩
    · exact .inr (.inl ⟨h1, h2, rfl, h.symm⟩)
  · have hn := mt (tickSends_iff (s.ch c) now).2 hs
    rw [if_neg hs] at h
    cases a with
    | some r => simp at h
    | none =>
      cases hst : (s.ch c).schedState with
      | idle =>
        simp only [hst, Except.ok.injEq] at h
        exact .inr (.inr (.inl ⟨rfl, by simp_all, rfl, h.symm⟩))
      | waitingReply =>
        simp only [hst, Except.ok.injEq, tickWaiting] at h
        by_cases hr : (s.ch c).replyDeadline ≤ now
        · simp only [replyDue, hr, decide_true, if_true] at h
          exact .inr (.inr (.inr (.inl ⟨rfl, hr, rfl, h.symm⟩)))
        · simp only [replyDue, hr, decide_false, Bool.false_eq_true, if_false] at h
          by_cases hg : gapExceeded (s.cfg c) (s.ch c) now = true
          · rw [if_pos hg] at h
            exact .inr (.inr (.inr (.inr (.inl ⟨rfl, by omega, hg, rfl, h.symm⟩))))
          · rw [if_neg hg] at h
            exact .inr (.inr (.inr (.inr (.inr ⟨rfl, by omega, by simpa using hg, rfl, h.symm⟩))))

/-- Everything CH_RX can do: discard in Idle (R146), or forward and act on the outcome (R141 to R145). -/
theorem rxByte_cases {c : Chan} {b : Byte} {now : Nat} {s t : State} (h : rxByte c b now s = .ok t) :
    ((s.ch c).schedState = .idle ∧ t = s) ∨
    ((s.ch c).schedState = .waitingReply ∧ ∃ o p, consume c s.capacity (s.ch c).parser b = .ok (o, p) ∧
      t = onOutcome c now o (s.setCh c { s.ch c with lastRxTime := now, parser := p })) := by
  unfold rxByte at h
  cases hst : (s.ch c).schedState with
  | idle =>
    simp only [hst, Except.ok.injEq] at h
    exact .inl ⟨rfl, h.symm⟩
  | waitingReply =>
    simp only [hst] at h
    cases hc : consume c s.capacity (s.ch c).parser b with
    | error e =>
      rw [hc] at h
      cases h
    | ok x =>
      rw [hc] at h
      cases h
      exact .inr ⟨rfl, _, _, rfl, by simp [hst]⟩

/-- Every byte that arrives in Idle is discarded (R146). -/
theorem rxBytes_idle {c : Chan} {now : Nat} {s : State} (h : (s.ch c).schedState = .idle) (bs : List Byte) :
    rxBytes c now bs s = .ok s := by
  induction bs with
  | nil => rfl
  | cons b bs ih => simp [rxBytes, rxByte, h, ih]

/-- A property each CH_RX keeps holds after an RX line (R85). -/
theorem rxBytes_induct {c : Chan} {now : Nat} {P : State → State → Prop} (hrefl : ∀ s, P s s)
    (htrans : ∀ s t u, P s t → P t u → P s u) (hstep : ∀ b s t, rxByte c b now s = .ok t → P s t) (bs : List Byte) {s t : State}
    (h : rxBytes c now bs s = .ok t) : P s t := by
  induction bs generalizing s with
  | nil =>
    cases h
    exact hrefl _
  | cons b bs ih =>
    unfold rxBytes at h
    cases hb : rxByte c b now s with
    | error e =>
      rw [hb] at h
      cases h
    | ok u =>
      rw [hb] at h
      exact htrans _ _ _ (hstep b _ u hb) (ih h)

/-- ORCH_TICK that is not refused is one tick of each channel, channel 0 first (R162, R163). -/
theorem tickBoth_ok {now : Nat} {a0 a1 : Option SendResult} {s t : State} :
    tickBoth now a0 a1 s = .ok t ↔ ∃ u, tick .ch0 now a0 s = .ok u ∧ tick .ch1 now a1 u = .ok t := by
  unfold tickBoth
  cases h : tick .ch0 now a0 s <;> simp

/-- Everything SEND_COMMAND can do when it is not refused: return a reason, or send one frame (R164). -/
theorem send_cases {c : Chan} {addr : Nat} {cmd : Byte} {payload : List Byte} {a : Option SendResult} {s t : State}
    (h : send c addr cmd payload a s = .ok t) :
    (∃ r, validate addr payload.length Config.txBufSize = some r ∧ a = none ∧ t = s.ret (.sendCommand (.validationError r))) ∨
    (∃ x, validate addr payload.length Config.txBufSize = none ∧ a = some x ∧
      t = commandSent c (frameBytes addr cmd payload) x
        { s with txBuf := (buildInto addr cmd payload Config.txBufSize s.txBuf).2 }) := by
  unfold send at h
  cases hv : validate addr payload.length Config.txBufSize with
  | some r =>
    cases a with
    | none =>
      simp only [hv, Except.ok.injEq] at h
      exact .inl ⟨r, rfl, rfl, h.symm⟩
    | some x => simp [hv] at h
  | none =>
    cases a with
    | none => simp [hv] at h
    | some x =>
      simp only [hv, Except.ok.injEq] at h
      exact .inr ⟨x, rfl, rfl, h.symm⟩

/-- An admitted operation that answers a next state found the block initialized (R161). -/
theorem admitted_next {s t : State} {o : Host.Outcome State Fault Refusal} (h : admitted s o = .next t) :
    s.initialized = true ∧ o = .next t := by
  unfold admitted at h
  split at h
  · exact ⟨‹_›, h⟩
  · cases h

/-- An initialized block admits every operation (R161). -/
theorem admitted_of {s : State} (h : s.initialized = true) (o : Host.Outcome State Fault Refusal) : admitted s o = o := by
  rw [admitted, if_pos h]

theorem ofRefusal_next {x : Except Refusal State} {t : State} : ofRefusal x = .next t ↔ x = .ok t := by
  cases x <;> simp [ofRefusal]

theorem ofFault_next {x : Except Fault State} {t : State} : ofFault x = .next t ↔ x = .ok t := by
  cases x <;> simp [ofFault]

end Sys2Proof.Machine
end

