-- ==== Sys2Proof/Laws/Step.lean ====
section
/-! SUPPORT. Everything exec can answer with a next state, one case per meaning, the eight frame rows as one, and what a step is. -/

namespace Sys2Proof.Machine

/-- The command byte of a frame-command row and what it receives (R76, R77). -/
def frameOf : Instr → Option (Byte × Chan × Nat × WireFrame)
  | .cmdS c now f => some (cmdByteS, c, now, f)
  | .cmdL c now f => some (cmdByteL, c, now, f)
  | .cmdR c now f => some (cmdByteR, c, now, f)
  | .cmdT c now f => some (cmdByteT, c, now, f)
  | .cmdC c now f => some (cmdByteC, c, now, f)
  | .cmdZ c now f => some (cmdByteZ, c, now, f)
  | .cmdD c now f => some (cmdByteD, c, now, f)
  | .cmdOther c now cmd f => some (cmd, c, now, f)
  | .init _ _ => none
  | .orchTick _ _ _ => none
  | .chTick _ _ _ => none
  | .chRx _ _ _ => none
  | .sendCommand _ _ _ _ _ => none
  | .buildFrame _ _ _ _ => none
  | .checksum _ => none
  | .parserConsume _ _ => none
  | .parserReset _ => none

/-- A frame-command row receives its wire bytes (R70, R85). -/
theorem exec_frame {i : Instr} {cmd : Byte} {c : Chan} {now : Nat} {f : WireFrame} (h : frameOf i = some (cmd, c, now, f)) (s : State) :
    exec i s = admitted s (ofFault (rxBytes c now (wireBytes cmd f) s)) := by
  cases i <;> simp only [frameOf, reduceCtorEq, Option.some.injEq, Prod.mk.injEq] at h <;> obtain ⟨rfl, rfl, rfl, rfl⟩ := h <;> rfl

/-- The cases of an operation that answers a next state. -/
inductive Ran (s t : State) : Instr → Prop where
  | frame {i : Instr} {cmd : Byte} {c : Chan} {now : Nat} {f : WireFrame} (hf : frameOf i = some (cmd, c, now, f))
      (hi : s.initialized = true) (h : rxBytes c now (wireBytes cmd f) s = .ok t) : Ran s t i
  | initRejected {k0 k1 : ChannelConfig} {k : Chan} {r : ConfigReason} (hi : s.initialized = false)
      (h : initFault k0 k1 = some (k, r)) (ht : t = s.ret (.init (.configRejected k r))) : Ran s t (.init k0 k1)
  | initOk {k0 k1 : ChannelConfig} (hi : s.initialized = false) (h : initFault k0 k1 = none)
      (ht : t = (initState k0 k1 s).ret (.init .ok)) : Ran s t (.init k0 k1)
  | orchTick {now : Nat} {a0 a1 : Option SendResult} {u : State} (hi : s.initialized = true) (h0 : tick .ch0 now a0 s = .ok u)
      (h1 : tick .ch1 now a1 u = .ok t) : Ran s t (.orchTick now a0 a1)
  | chTick {c : Chan} {now : Nat} {a : Option SendResult} (hi : s.initialized = true) (h : tick c now a s = .ok t) :
      Ran s t (.chTick c now a)
  | chRx {c : Chan} {b : Byte} {now : Nat} (hi : s.initialized = true) (h : rxByte c b now s = .ok t) : Ran s t (.chRx c b now)
  | sendCommand {c : Chan} {addr : Nat} {cmd : Byte} {payload : List Byte} {a : Option SendResult} (hi : s.initialized = true)
      (h : send c addr cmd payload a s = .ok t) : Ran s t (.sendCommand c addr cmd payload a)
  | buildFrame {addr : Nat} {cmd : Byte} {payload : List Byte} {outCap : Nat}
      (ht : t = { s with outBuf := (buildInto addr cmd payload outCap s.outBuf).2 }.ret
        (.buildFrame (buildInto addr cmd payload outCap s.outBuf).1)) : Ran s t (.buildFrame addr cmd payload outCap)
  | checksum {bytes : List Byte} (ht : t = s.ret (.checksum (checksumOf bytes))) : Ran s t (.checksum bytes)
  | parserConsume {c : Chan} {b : Byte} {o : ParserOutcome} {p : ParserState} (hi : s.initialized = true)
      (h : consume c s.capacity (s.ch c).parser b = .ok (o, p)) (ht : t = (s.setParser c p).ret (.parserConsume o)) :
      Ran s t (.parserConsume c b)
  | parserReset {c : Chan} (hi : s.initialized = true) (ht : t = s.setParser c (resetParser (s.ch c).parser)) :
      Ran s t (.parserReset c)

/-- An operation that answers a next state ran as one of the cases of `Ran`. -/
theorem exec_next {i : Instr} {s t : State} (h : exec i s = .next t) : Ran s t i := by
  have frameCase : ∀ cmd c now f, frameOf i = some (cmd, c, now, f) → Ran s t i := fun cmd c now f hf => by
    rw [exec_frame hf] at h
    obtain ⟨hi, h⟩ := admitted_next h
    exact .frame hf hi (ofFault_next.1 h)
  cases i with
  | cmdS c now f => exact frameCase _ _ _ _ rfl
  | cmdL c now f => exact frameCase _ _ _ _ rfl
  | cmdR c now f => exact frameCase _ _ _ _ rfl
  | cmdT c now f => exact frameCase _ _ _ _ rfl
  | cmdC c now f => exact frameCase _ _ _ _ rfl
  | cmdZ c now f => exact frameCase _ _ _ _ rfl
  | cmdD c now f => exact frameCase _ _ _ _ rfl
  | cmdOther c now cmd f => exact frameCase _ _ _ _ rfl
  | init k0 k1 =>
    simp only [exec, execInit] at h
    split at h
    · cases h
    · have hi : s.initialized = false := by simpa using ‹¬ s.initialized = true›
      split at h <;> cases h
      · exact .initRejected hi ‹_› rfl
      · exact .initOk hi ‹_› rfl
  | orchTick now a0 a1 =>
    obtain ⟨hi, h⟩ := admitted_next h
    obtain ⟨u, h0, h1⟩ := tickBoth_ok.1 (ofRefusal_next.1 h)
    exact .orchTick hi h0 h1
  | chTick c now a =>
    obtain ⟨hi, h⟩ := admitted_next h
    exact .chTick hi (ofRefusal_next.1 h)
  | chRx c b now =>
    obtain ⟨hi, h⟩ := admitted_next h
    exact .chRx hi (ofFault_next.1 h)
  | sendCommand c addr cmd payload a =>
    obtain ⟨hi, h⟩ := admitted_next h
    exact .sendCommand hi (ofRefusal_next.1 h)
  | buildFrame addr cmd payload outCap =>
    cases h
    exact .buildFrame rfl
  | checksum bytes =>
    cases h
    exact .checksum rfl
  | parserConsume c b =>
    obtain ⟨hi, h⟩ := admitted_next h
    cases hc : consume c s.capacity (s.ch c).parser b with
    | error e => simp [hc] at h
    | ok x =>
      simp only [hc] at h
      cases h
      exact .parserConsume hi hc rfl
  | parserReset c =>
    obtain ⟨hi, h⟩ := admitted_next h
    cases h
    exact .parserReset hi rfl

/-- The clock an admitted operation leaves: its own `now`, which is not earlier, or the clock as it was (R130, R212). -/
theorem clockAfter_ok {clock n : Nat} {i : Instr} (h : clockAfter clock i = .ok n) :
    (nowOf i = none ∧ n = clock) ∨ (nowOf i = some n ∧ clock ≤ n) := by
  unfold clockAfter at h
  split at h
  · cases h
    exact .inl ⟨‹_›, rfl⟩
  · split at h
    · cases h
    · cases h
      exact .inr ⟨‹_›, by omega⟩

/-- A step that answers a next state performed the operation the script begins with, at a time not earlier than the clock. -/
theorem step_next {s t : State} (h : step s = .next t) :
    ∃ i rest n, decode s.script = .ok (i, rest) ∧ clockAfter s.clock i = .ok n ∧ exec i { s with script := rest, clock := n } = .next t := by
  unfold step at h
  split at h
  · cases h
  · rename_i i s' hf
    unfold fetch at hf
    split at hf
    · cases hf
    · split at hf
      · cases hf
      · split at hf
        · cases hf
        · cases hf
          exact ⟨_, _, _, ‹_›, ‹_›, h⟩

end Sys2Proof.Machine
end

