-- ==== Sys2Proof/Laws/Channel.lean ====
section
/-! SUPPORT. What the operations on one channel can change at most, and when a tick or a byte does what. -/

namespace Sys2Proof.Machine

/-- `t` differs from `s` at most in channel `c`'s runtime record and in what was sent, delivered and emitted on channel `c` (R43, R44). -/
structure OnChannel (c : Chan) (s t : State) : Prop where
  initialized : t.initialized = s.initialized
  cfg : ∀ d, t.cfg d = s.cfg d
  other : ∀ d, d ≠ c → t.ch d = s.ch d
  capacity : t.capacity = s.capacity
  outBuf : t.outBuf = s.outBuf
  txBuf : t.txBuf = s.txBuf
  script : t.script = s.script
  clock : t.clock = s.clock
  returned : t.returned = s.returned
  sends : ∃ x, t.sends = s.sends ++ x ∧ ∀ r ∈ x, r.chan = c
  results : ∃ x, t.results = s.results ++ x ∧ ∀ r ∈ x, r.chan = c
  diags : ∃ x, t.diags = s.diags ++ x ∧ ∀ r ∈ x, r.chan = c

theorem OnChannel_refl (c : Chan) (s : State) : OnChannel c s s :=
  ⟨rfl, fun _ => rfl, fun _ _ => rfl, rfl, rfl, rfl, rfl, rfl, rfl, ⟨[], by simp⟩, ⟨[], by simp⟩, ⟨[], by simp⟩⟩

/-- Two appended parts that are both of one channel. -/
theorem chan_append {α : Type} {f : α → Chan} {c : Chan} {xs ys zs : List α} (h1 : ∃ x, ys = xs ++ x ∧ ∀ r ∈ x, f r = c)
    (h2 : ∃ x, zs = ys ++ x ∧ ∀ r ∈ x, f r = c) : ∃ x, zs = xs ++ x ∧ ∀ r ∈ x, f r = c := by
  obtain ⟨x, rfl, hx⟩ := h1
  obtain ⟨y, rfl, hy⟩ := h2
  refine ⟨x ++ y, by rw [List.append_assoc], fun r hr => ?_⟩
  rcases List.mem_append.1 hr with h | h
  · exact hx r h
  · exact hy r h

theorem OnChannel_trans {c : Chan} {s t u : State} (h : OnChannel c s t) (g : OnChannel c t u) : OnChannel c s u where
  initialized := g.initialized.trans h.initialized
  cfg d := (g.cfg d).trans (h.cfg d)
  other d hd := (g.other d hd).trans (h.other d hd)
  capacity := g.capacity.trans h.capacity
  outBuf := g.outBuf.trans h.outBuf
  txBuf := g.txBuf.trans h.txBuf
  script := g.script.trans h.script
  clock := g.clock.trans h.clock
  returned := g.returned.trans h.returned
  sends := chan_append h.sends g.sends
  results := chan_append h.results g.results
  diags := chan_append h.diags g.diags

/-- CH_TICK acts on its channel alone (R43). -/
theorem tick_onChannel {c : Chan} {now : Nat} {a : Option SendResult} {s t : State} (h : tick c now a s = .ok t) : OnChannel c s t := by
  rcases tick_cases h with ⟨-, -, -, rfl⟩ | ⟨-, -, -, rfl⟩ | ⟨-, -, -, rfl⟩ | ⟨-, -, -, rfl⟩ | ⟨-, -, -, -, rfl⟩ | ⟨-, -, -, -, rfl⟩
  · constructor <;> simp +contextual [pollSent, setCh_ch_other]
  · constructor <;> simp +contextual [pollFailed, setCh_ch_other]
  · exact OnChannel_refl _ _
  · constructor <;> simp +contextual [replyTimedOut, setCh_ch_other, State.toIdle, State.setParser]
  · constructor <;> simp +contextual [gapReset, setCh_ch_other, State.setParser]
  · exact OnChannel_refl _ _

/-- CH_RX acts on its channel alone (R43). -/
theorem rxByte_onChannel {c : Chan} {b : Byte} {now : Nat} {s t : State} (h : rxByte c b now s = .ok t) : OnChannel c s t := by
  rcases rxByte_cases h with ⟨-, rfl⟩ | ⟨-, o, p, -, rfl⟩
  · exact OnChannel_refl _ _
  · cases o <;> constructor <;> simp +contextual [onOutcome, setCh_ch_other, State.toIdle]

/-- An RX line acts on its channel alone (R43). -/
theorem rxBytes_onChannel {c : Chan} {now : Nat} {bs : List Byte} {s t : State} (h : rxBytes c now bs s = .ok t) : OnChannel c s t :=
  rxBytes_induct (OnChannel_refl c) (fun _ _ _ => OnChannel_trans) (fun _ _ _ => rxByte_onChannel) bs h

/-- A tick in Idle with its poll due sends, and so needs its answer (R84, R132, R133). -/
theorem tick_due {c : Chan} {now : Nat} {s : State} (h : (s.ch c).schedState = .idle) (hd : (s.ch c).nextPollDeadline ≤ now)
    (r : SendResult) :
    tick c now none s = .error (.answerMissing c) ∧
      tick c now (some r) s = .ok (if r = .ok then pollSent c now s else pollFailed c now s) := by
  have hs := (tickSends_iff (s.ch c) now).2 ⟨h, hd⟩
  cases r <;> simp [tick, hs]

/-- Any other tick makes no send, and takes no answer (R84, R134 to R137). -/
theorem tick_notDue {c : Chan} {now : Nat} {s : State} (h : ¬ ((s.ch c).schedState = .idle ∧ (s.ch c).nextPollDeadline ≤ now))
    (r : SendResult) :
    tick c now (some r) s = .error (.answerUnexpected c) ∧
      tick c now none s = .ok (if (s.ch c).schedState = .idle then s else tickWaiting c now s) := by
  have hs : tickSends (s.ch c) now = false := by
    rw [← Bool.not_eq_true, tickSends_iff]
    exact h
  cases hst : (s.ch c).schedState <;> simp [tick, hs, hst]

/-- A byte in WaitingReply goes to the parser, and the scheduler acts on the outcome (R141). -/
theorem rxByte_forward {c : Chan} {b : Byte} {now : Nat} {s : State} {o : ParserOutcome} {p : ParserState}
    (h : (s.ch c).schedState = .waitingReply) (hc : consume c s.capacity (s.ch c).parser b = .ok (o, p)) :
    rxByte c b now s = .ok (onOutcome c now o (s.setCh c { s.ch c with lastRxTime := now, parser := p })) := by
  simp [rxByte, h, hc]

/-- What INIT finds wrong with a configuration: nothing exactly when the address is legal and the gap below the timeout (R160). -/
theorem configFault_eq_none_iff (k : ChannelConfig) :
    configFault k = none ↔ (1 ≤ k.stationAddr.toNat ∧ k.stationAddr.toNat ≤ 32) ∧ ∀ g, k.gapTimeout = some g → g < k.replyTimeout := by
  unfold configFault
  by_cases h : 1 ≤ k.stationAddr.toNat ∧ k.stationAddr.toNat ≤ 32
  · rw [(addressLegal_iff _).2 h]
    cases k.gapTimeout <;> simp [h]
  · have hl : addressLegal k.stationAddr.toNat = false := by
      rw [← Bool.not_eq_true, addressLegal_iff]
      exact h
    simp [hl, h]

end Sys2Proof.Machine
end

