-- ==== Sys2Proof/Laws/Frame.lean ====
section
/-! SUPPORT. A frame's bytes through the parser: every byte but the last is InProgress, and what the parser holds after them. -/

namespace Sys2Proof.Machine

/-- Every byte of a list gives InProgress and takes the parser from one state to another. -/
inductive InProgress (c : Chan) (cap : Nat) : List Byte → ParserState → ParserState → Prop where
  | nil (p : ParserState) : InProgress c cap [] p p
  | cons {b : Byte} {bs : List Byte} {p q r : ParserState} (h : consume c cap p b = .ok (.inProgress, q))
      (ht : InProgress c cap bs q r) : InProgress c cap (b :: bs) p r

theorem InProgress_append {c : Chan} {cap : Nat} {xs ys : List Byte} {p q r : ParserState} (h : InProgress c cap xs p q)
    (h2 : InProgress c cap ys q r) : InProgress c cap (xs ++ ys) p r := by
  induction h with
  | nil => exact h2
  | cons h ht ih => exact .cons h (ih h2)

/-- Payload bytes in WaitData: the parser counts them, and is in WaitChecksum exactly when it has them all (R105). -/
theorem payload_inProgress {c : Chan} {cap : Nat} (payload : List Byte) {p : ParserState} (hp : p.pstate = .waitData)
    (hw : p.buf.wf = true) (hlt : p.index < 4 + p.expectedLen) (hle : p.index + payload.length ≤ 4 + p.expectedLen)
    (hcap : 4 + p.expectedLen ≤ cap) :
    ∃ q, InProgress c cap payload p q ∧
      q = { p with
        pstate := if p.index + payload.length = 4 + p.expectedLen then .waitChecksum else .waitData
        buf := p.buf.writeBytes p.index payload
        index := p.index + payload.length } := by
  induction payload generalizing p with
  | nil =>
    refine ⟨p, .nil p, ?_⟩
    have : ¬ p.index + List.length ([] : List Byte) = 4 + p.expectedLen := by
      simp only [List.length_nil]
      omega
    rw [if_neg this, ← hp]
    rfl
  | cons b bs ih =>
    simp only [List.length_cons] at hle
    have hpush := consume_push (c := c) (cap := cap) (p := p) (b := b) (by simp [buffers, hp]) (by omega)
    by_cases hlast : p.index + 1 = 4 + p.expectedLen
    · have hnil : bs = [] := List.length_eq_zero_iff.1 (by omega)
      subst hnil
      refine ⟨_, .cons hpush (.nil _), ?_⟩
      have ha : advance p.pstate b (pushed p b) = { pushed p b with pstate := .waitChecksum } := by
        rw [hp]
        exact if_pos hlast
      rw [ha, if_pos (by simpa using hlast)]
      rfl
    · have ha : advance p.pstate b (pushed p b) = pushed p b := by
        rw [hp]
        exact if_neg hlast
      rw [ha] at hpush
      obtain ⟨q, h1, h2⟩ := ih (p := pushed p b) hp (wf_write hw _ _) (by simp only [pushed]; omega) (by simp only [pushed]; omega) hcap
      refine ⟨q, .cons hpush h1, ?_⟩
      rw [h2]
      simp only [pushed, Memory.writeBytes, List.length_cons]
      have e : p.index + 1 + bs.length = p.index + (bs.length + 1) := by omega
      simp only [e]

/-- A frame's first bytes from WaitSyn: sync marker, header, and payload no longer than the command's length (R101 to R105). -/
theorem frame_inProgress {c : Chan} {cap : Nat} (hi lo cmd : Byte) (payload : List Byte) {p : ParserState} (hp : p.pstate = .waitSyn)
    (h0 : p.index = 0) (hw : p.buf.wf = true) (hcap : 26 ≤ cap) (hle : payload.length ≤ lenOf cmd) :
    ∃ q, InProgress c cap ([Config.sync, hi, lo, cmd] ++ payload) p q ∧
      q = { pstate := if payload.length = lenOf cmd then .waitChecksum else .waitData
            buf := p.buf.writeBytes 0 ([Config.sync, hi, lo, cmd] ++ payload)
            index := 4 + payload.length
            cmd := cmd
            expectedLen := lenOf cmd } := by
  have hl := lenOf_le cmd
  obtain ⟨st, m, n, k, e⟩ := p
  simp only at hp h0 hw
  subst hp h0
  have c1 := consume_push (c := c) (cap := cap) (p := ⟨.waitSyn, m, 0, k, e⟩) (b := Config.sync) rfl (by simp only; omega)
  have c2 := consume_push (c := c) (cap := cap) (p := ⟨.waitAddrHi, m.write 0 Config.sync, 1, k, e⟩) (b := hi) trivial (by simp only; omega)
  have c3 := consume_push (c := c) (cap := cap) (p := ⟨.waitAddrLo, (m.write 0 Config.sync).write 1 hi, 2, k, e⟩) (b := lo) trivial
    (by simp only; omega)
  have c4 := consume_push (c := c) (cap := cap) (p := ⟨.waitCmd, ((m.write 0 Config.sync).write 1 hi).write 2 lo, 3, k, e⟩) (b := cmd)
    trivial (by simp only; omega)
  have hhead : InProgress c cap [Config.sync, hi, lo, cmd] ⟨.waitSyn, m, 0, k, e⟩
      ⟨if 0 < lenOf cmd then .waitData else .waitChecksum, m.writeBytes 0 [Config.sync, hi, lo, cmd], 4, cmd, lenOf cmd⟩ :=
    .cons c1 (.cons c2 (.cons c3 (.cons c4 (.nil _))))
  by_cases hz : 0 < lenOf cmd
  · rw [if_pos hz] at hhead
    obtain ⟨q, h1, h2⟩ := payload_inProgress (c := c) (cap := cap) payload
      (p := ⟨.waitData, m.writeBytes 0 [Config.sync, hi, lo, cmd], 4, cmd, lenOf cmd⟩) rfl (wf_writeBytes hw _ _)
      (by simp only; omega) (by simp only; omega) (by simp only; omega)
    refine ⟨q, InProgress_append hhead h1, ?_⟩
    rw [h2]
    simp only [Nat.add_left_cancel_iff]
    rfl
  · have hnil : payload = [] := List.length_eq_zero_iff.1 (by omega)
    subst hnil
    rw [if_neg hz] at hhead
    refine ⟨_, hhead, ?_⟩
    rw [if_pos (by simp only [List.length_nil]; omega)]
    rfl

/-- The bytes read back from where a list of bytes was written. -/
theorem readBytes_writeBytes {m : Memory} (h : m.wf = true) (pre xs : List Byte) :
    (m.writeBytes 0 (pre ++ xs)).readBytes pre.length xs.length = xs := by
  induction xs generalizing pre with
  | nil => rfl
  | cons x xs ih =>
    have := ih (pre ++ [x])
    simp only [List.append_assoc, List.singleton_append, List.length_append, List.length_cons, List.length_nil] at this
    rw [List.length_cons, Memory.readBytes, this, read_writeBytes h, if_pos (by simp)]
    simp

/-- Bytes that all give InProgress, received in WaitingReply at one time, leave the channel waiting (R142). -/
theorem rxBytes_inProgress {c : Chan} {now cap : Nat} {bs : List Byte} {p q : ParserState} {s : State}
    (h : InProgress c cap bs p q) (hcap : s.capacity = cap) (hst : (s.ch c).schedState = .waitingReply) (hp : (s.ch c).parser = p)
    (hne : bs ≠ []) :
    rxBytes c now bs s = .ok (s.setCh c { s.ch c with lastRxTime := now, parser := q }) := by
  induction h generalizing s with
  | nil => exact absurd rfl hne
  | @cons b bs p q r h ht ih =>
    have hrx : rxByte c b now s = .ok (s.setCh c { s.ch c with lastRxTime := now, parser := q }) := by
      simp only [rxByte, hst, hp, hcap, h, onOutcome]
    simp only [rxBytes, hrx]
    cases bs with
    | nil => cases ht; rfl
    | cons b2 bs2 =>
      rw [ih (by simpa using hcap) (by simpa using hst) (by simp) (by simp)]
      simp

/-- An RX line in two parts (R85). -/
theorem rxBytes_append {c : Chan} {now : Nat} {xs ys : List Byte} {s t : State} (h : rxBytes c now xs s = .ok t) :
    rxBytes c now (xs ++ ys) s = rxBytes c now ys t := by
  induction xs generalizing s with
  | nil =>
    cases h
    rfl
  | cons x xs ih =>
    simp only [List.cons_append, rxBytes] at h ⊢
    cases hx : rxByte c x now s with
    | error e =>
      rw [hx] at h
      cases h
    | ok u =>
      rw [hx] at h
      exact ih h

/-- A byte in WaitChecksum at a conforming index: the checksum of the bytes buffered after the sync marker decides (R106, R107). -/
theorem consume_frame_end {c : Chan} {cap : Nat} (hi lo cmd cs : Byte) (payload : List Byte) {m : Memory} (hw : m.wf = true)
    (hcap : 26 ≤ cap) (hlen : payload.length = lenOf cmd) {q : ParserState}
    (hq : q = { pstate := .waitChecksum
                buf := m.writeBytes 0 ([Config.sync, hi, lo, cmd] ++ payload)
                index := 4 + payload.length
                cmd := cmd
                expectedLen := lenOf cmd }) :
    consume c cap q cs = .ok (if cs = checksumOf ([hi, lo, cmd] ++ payload) then .success ⟨lo, cmd, payload⟩ else .checksumError,
      resetParser q) := by
  have hl := lenOf_le cmd
  subst hq
  rw [consume_checksum rfl (by omega) (by simp only; omega)]
  have h1 := readBytes_writeBytes hw [Config.sync] ([hi, lo, cmd] ++ payload)
  have h4 := readBytes_writeBytes hw [Config.sync, hi, lo, cmd] payload
  have h2 : (m.writeBytes 0 ([Config.sync, hi, lo, cmd] ++ payload)).read 2 = lo := by
    rw [read_writeBytes hw, if_pos (by simp)]
    rfl
  have e1 : 4 + payload.length - 1 = ([hi, lo, cmd] ++ payload).length := by simp; omega
  have e4 : 4 + payload.length - 4 = payload.length := by omega
  simp only [List.cons_append, List.nil_append, List.length_cons, List.length_nil] at h1 h2 h4 e1 ⊢
  simp only [e1, e4, h2, h4]
  simp only [Nat.zero_add] at h1
  rw [h1]

end Sys2Proof.Machine
end

