-- ==== Sys2Proof/Laws/PerInstr.lean ====
section
/-! SUPPORT. One lemma per constructor of Instr: the first byte an operation is written with. -/

namespace Sys2Proof.Laws.FirstByte

/-- The first byte of each row, written out from the opcode table: a frame row's command byte (R76), an operation's tag (R82); a CMD_OTHER
whose command byte is one of 0x00 to 0x09 begins with the escape 0x00 (log entry 6). -/
def byteOf : Instr → Byte
  | .cmdS _ _ _ => 0x53#8
  | .cmdL _ _ _ => 0x4C#8
  | .cmdR _ _ _ => 0x52#8
  | .cmdT _ _ _ => 0x54#8
  | .cmdC _ _ _ => 0x43#8
  | .cmdZ _ _ _ => 0x5A#8
  | .cmdD _ _ _ => 0x44#8
  | .cmdOther _ _ cmd _ => if cmd.toNat < 10 then 0x00#8 else cmd
  | .init _ _ => 0x01#8
  | .orchTick _ _ _ => 0x02#8
  | .chTick _ _ _ => 0x03#8
  | .chRx _ _ _ => 0x04#8
  | .sendCommand _ _ _ _ _ => 0x05#8
  | .buildFrame _ _ _ _ => 0x06#8
  | .checksum _ => 0x07#8
  | .parserConsume _ _ => 0x08#8
  | .parserReset _ => 0x09#8

/-- The instruction's bytes begin with its row's byte. -/
def Statement (i : Instr) : Prop := (encode i).head? = some (byteOf i)

theorem cmdS (c : Chan) (now : Nat) (f : WireFrame) : Statement (.cmdS c now f) := rfl
theorem cmdL (c : Chan) (now : Nat) (f : WireFrame) : Statement (.cmdL c now f) := rfl
theorem cmdR (c : Chan) (now : Nat) (f : WireFrame) : Statement (.cmdR c now f) := rfl
theorem cmdT (c : Chan) (now : Nat) (f : WireFrame) : Statement (.cmdT c now f) := rfl
theorem cmdC (c : Chan) (now : Nat) (f : WireFrame) : Statement (.cmdC c now f) := rfl
theorem cmdZ (c : Chan) (now : Nat) (f : WireFrame) : Statement (.cmdZ c now f) := rfl
theorem cmdD (c : Chan) (now : Nat) (f : WireFrame) : Statement (.cmdD c now f) := rfl
theorem cmdOther (c : Chan) (now : Nat) (cmd : Byte) (f : WireFrame) : Statement (.cmdOther c now cmd f) := by
  by_cases h : cmd.toNat < 10 <;> simp [Statement, encode, otherHead, byteOf, Machine.escapeBound, Machine.escapeByte, h]
theorem init (cfg0 cfg1 : ChannelConfig) : Statement (.init cfg0 cfg1) := rfl
theorem orchTick (now : Nat) (a0 a1 : Option SendResult) : Statement (.orchTick now a0 a1) := rfl
theorem chTick (c : Chan) (now : Nat) (a : Option SendResult) : Statement (.chTick c now a) := rfl
theorem chRx (c : Chan) (b : Byte) (now : Nat) : Statement (.chRx c b now) := rfl
theorem sendCommand (c : Chan) (addr : Nat) (cmd : Byte) (payload : List Byte) (a : Option SendResult) :
    Statement (.sendCommand c addr cmd payload a) := rfl
theorem buildFrame (addr : Nat) (cmd : Byte) (payload : List Byte) (outCap : Nat) : Statement (.buildFrame addr cmd payload outCap) := rfl
theorem checksum (bytes : List Byte) : Statement (.checksum bytes) := rfl
theorem parserConsume (c : Chan) (b : Byte) : Statement (.parserConsume c b) := rfl
theorem parserReset (c : Chan) : Statement (.parserReset c) := rfl

end Sys2Proof.Laws.FirstByte
end

