-- ==== Sys2Proof/Machine/Script.lean ====
section
/-! DEFINITION. The script lines of R85, in which the spec writes its test programs, and the operations each line is. -/

namespace Sys2Proof.Machine

/-- One line of a script (R85). -/
inductive ScriptLine where
  /-- `INIT c0{…} c1{…}`. -/
  | init (cfg0 cfg1 : ChannelConfig)
  /-- `TICK t=N [c0=…] [c1=…]`. -/
  | tick (now : Nat) (a0 a1 : Option SendResult)
  /-- `RX c=C t=N HH …`. -/
  | rx (c : Chan) (now : Nat) (bytes : List Byte)
  /-- `SEND c=C addr=A cmd=0xHH payload=[…] ans=…`. -/
  | send (c : Chan) (addr : Nat) (cmd : Byte) (payload : List Byte) (ans : SendResult)
  deriving DecidableEq, Repr

/-- The operations of a line: one, but for RX, which is one CH_RX per byte, left to right; SEND's answer is dropped where no send is made
(R85, and line 6 of the spec's program P5). -/
def ScriptLine.ops : ScriptLine → List Instr
  | .init cfg0 cfg1 => [.init cfg0 cfg1]
  | .tick now a0 a1 => [.orchTick now a0 a1]
  | .rx c now bytes => bytes.map fun b => .chRx c b now
  | .send c addr cmd payload ans =>
    match validate addr payload.length Config.txBufSize with
    | none => [.sendCommand c addr cmd payload (some ans)]
    | some _ => [.sendCommand c addr cmd payload none]

/-- The bytes a host writes for a script (R85; log entry 4). -/
def scriptBytes : List ScriptLine → List Byte
  | [] => []
  | l :: ls => (l.ops.flatMap encode) ++ scriptBytes ls

end Sys2Proof.Machine
end

