-- ==== Sys2Proof/Tests/Slice0.lean ====
section
/-! SUPPORT. Tests of the model against the spec's own vectors (spec/95_test_vectors.md names each as V-…), words written out from the
spec's encodings, ill-formed terms, and a witness for the hypotheses of every statement. -/

open Sys2Proof Sys2Proof.Machine Sys2Proof.Spec

namespace Sys2Proof.Tests

/-! ## Small states -/

/-- `STD(a)` of the vectors. -/
def std (a : Byte) : ChannelConfig :=
  { stationAddr := a, pollCmd := 0x53#8, pollInterval := 200, replyTimeout := 80, gapTimeout := none, transport := 0 }

/-- `STDG(a)` of the vectors. -/
def stdg (a : Byte) : ChannelConfig := { std a with gapTimeout := some 20 }

/-- The state after V-I1, with nothing observed yet. -/
def ready : State := { State.reset with initialized := true, cfg0 := std 0x05#8, cfg1 := std 0x09#8 }

/-- Channel 0 after V-T1: polled at 0, waiting until 80. -/
def polled : State := { ready with ch0 := { ChannelRuntime.initial with schedState := .waitingReply, replyDeadline := 80 } }

/-- A parser that has buffered these bytes. -/
def parserAt (st : PState) (bytes : List Byte) (cmd : Byte) (len : Nat) : ParserState :=
  ⟨st, Memory.writeBytes [] 0 bytes, bytes.length, cmd, len⟩

/-- Channel 0 of a state with another parser. -/
def withParser (s : State) (p : ParserState) : State := s.setParser .ch0 p

/-- The parser of V-P1 before its last byte. -/
def atChecksum : ParserState := parserAt .waitChecksum [0x02#8, 0x00#8, 0x05#8, 0x53#8, 0x12#8, 0x34#8] 0x53#8 2

/-- The parser of V-P14 before its last byte, where CAPACITY is 4. -/
def atFull : ParserState := parserAt .waitData [0x02#8, 0x00#8, 0x05#8, 0x53#8] 0x53#8 2

/-- A block with a parser buffer of 4 bytes, outside conformance (R8). -/
def capacity4 (s : State) : State := { s with capacity := 4 }

/-- Channel 0 before the last byte of V-P1: its parser alone, and in an open window. -/
def readyEnd : State := withParser ready atChecksum
def polledEnd : State := withParser polled atChecksum

/-- Channel 0 with its 4-byte buffer full: its parser alone, and in an open window. -/
def readyFull : State := capacity4 (withParser ready atFull)
def polledFull : State := capacity4 (withParser polled atFull)

/-- The bytes 00 01 … of the vectors. -/
def upTo (n : Nat) : List Byte := (List.range n).map (BitVec.ofNat 8)

/-- The first result delivered. -/
def firstResult (o : Host.Outcome State Fault Refusal) : Option ResultRecord := (after o).bind fun s => s.results.head?

/-- The first value returned. -/
def firstReturned (o : Host.Outcome State Fault Refusal) : Option Returned := (after o).bind fun s => s.returned.head?

/-- The bytes of the caller's buffer. -/
def outBytes (n : Nat) (o : Host.Outcome State Fault Refusal) : Option (List Byte) := (after o).map fun s => s.outBuf.readBytes 0 n

/-- The sends so far. -/
def sendsAfter (o : Host.Outcome State Fault Refusal) : Option (List SendRecord) := (after o).map State.sends

/-- The events so far. -/
def diagsAfter (o : Host.Outcome State Fault Refusal) : Option (List DiagRecord) := (after o).map State.diags

/-- `(sched_state, next_poll_deadline, reply_deadline, last_rx_time)` of channel 0. -/
def ch0After (o : Host.Outcome State Fault Refusal) : Option (SchedState × Nat × Nat × Nat) :=
  (after o).map fun s => (s.ch0.schedState, s.ch0.nextPollDeadline, s.ch0.replyDeadline, s.ch0.lastRxTime)

/-- `(pstate, index, cmd, expected_len)` of channel 0's parser. -/
def parser0After (o : Host.Outcome State Fault Refusal) : Option (PState × Nat × Byte × Nat) :=
  (after o).map fun s => (s.ch0.parser.pstate, s.ch0.parser.index, s.ch0.parser.cmd, s.ch0.parser.expectedLen)

/-! ## Well-formedness: one ill-formed term per check (R76, R77, R79) -/

theorem test_illFormed_cmdS : ¬ (Instr.cmdS .ch0 0 ⟨0x00#8, 0x05#8, [0x12#8], 0x44#8⟩).WellFormed := by decide
theorem test_illFormed_cmdL : ¬ (Instr.cmdL .ch0 0 ⟨0x00#8, 0x05#8, upTo 9, 0x44#8⟩).WellFormed := by decide
theorem test_illFormed_cmdR : ¬ (Instr.cmdR .ch0 0 ⟨0x00#8, 0x05#8, upTo 11, 0x44#8⟩).WellFormed := by decide
theorem test_illFormed_cmdT : ¬ (Instr.cmdT .ch0 0 ⟨0x00#8, 0x05#8, upTo 21, 0x44#8⟩).WellFormed := by decide
theorem test_illFormed_cmdC : ¬ (Instr.cmdC .ch0 0 ⟨0x00#8, 0x05#8, upTo 10, 0x44#8⟩).WellFormed := by decide
theorem test_illFormed_cmdZ : ¬ (Instr.cmdZ .ch0 0 ⟨0x00#8, 0x05#8, upTo 7, 0x44#8⟩).WellFormed := by decide
theorem test_illFormed_cmdD : ¬ (Instr.cmdD .ch0 0 ⟨0x00#8, 0x05#8, [], 0x44#8⟩).WellFormed := by decide
theorem test_illFormed_cmdOther_length : ¬ (Instr.cmdOther .ch0 0 0x41#8 ⟨0x00#8, 0x05#8, [0x12#8], 0x44#8⟩).WellFormed := by decide
theorem test_illFormed_cmdOther_listed : ¬ (Instr.cmdOther .ch0 0 0x53#8 ⟨0x00#8, 0x05#8, [0x12#8, 0x34#8], 0x70#8⟩).WellFormed := by
  decide
theorem test_wellFormed_cmdS : (Instr.cmdS .ch0 0 ⟨0x00#8, 0x05#8, [0x12#8, 0x34#8], 0x70#8⟩).WellFormed := by decide

/-! ## Words written out from the spec's encodings (R70, R76, R82, R85; operand bytes by log entry 4) -/

theorem test_decode_cmdS :
    decode [0x53#8, 0x00#8, 0x05#8, 0x12#8, 0x34#8, 0x70#8, 0x00#8, 0x1E#8] =
      .ok (.cmdS .ch0 30 ⟨0x00#8, 0x05#8, [0x12#8, 0x34#8], 0x70#8⟩, []) := rfl
theorem test_decode_cmdL :
    decode ([0x4C#8, 0x00#8, 0x03#8] ++ upTo 10 ++ [0x4E#8, 0x01#8, 0x00#8]) =
      .ok (.cmdL .ch1 0 ⟨0x00#8, 0x03#8, upTo 10, 0x4E#8⟩, []) := rfl
theorem test_decode_cmdR :
    decode ([0x52#8, 0x00#8, 0x03#8] ++ upTo 10 ++ [0x50#8, 0x00#8, 0x00#8, 0xFF#8]) =
      .ok (.cmdR .ch0 0 ⟨0x00#8, 0x03#8, upTo 10, 0x50#8⟩, [0xFF#8]) := rfl
theorem test_decode_cmdT :
    decode ([0x54#8, 0x00#8, 0x01#8] ++ upTo 22 ++ [0x54#8, 0x00#8, 0x00#8]) =
      .ok (.cmdT .ch0 0 ⟨0x00#8, 0x01#8, upTo 22, 0x54#8⟩, []) := rfl
theorem test_decode_cmdC :
    decode ([0x43#8, 0x00#8, 0x03#8] ++ upTo 11 ++ [0x4B#8, 0x00#8, 0x00#8]) =
      .ok (.cmdC .ch0 0 ⟨0x00#8, 0x03#8, upTo 11, 0x4B#8⟩, []) := rfl
theorem test_decode_cmdZ :
    decode ([0x5A#8, 0x00#8, 0x03#8] ++ upTo 6 ++ [0x58#8, 0x00#8, 0x00#8]) =
      .ok (.cmdZ .ch0 0 ⟨0x00#8, 0x03#8, upTo 6, 0x58#8⟩, []) := rfl
theorem test_decode_cmdD :
    decode [0x44#8, 0x00#8, 0x07#8, 0xAA#8, 0xBB#8, 0x52#8, 0x00#8, 0x0F#8] =
      .ok (.cmdD .ch0 15 ⟨0x00#8, 0x07#8, [0xAA#8, 0xBB#8], 0x52#8⟩, []) := rfl
theorem test_decode_cmdOther :
    decode [0x41#8, 0x01#8, 0x05#8, 0x45#8, 0x00#8, 0x00#8] = .ok (.cmdOther .ch0 0 0x41#8 ⟨0x01#8, 0x05#8, [], 0x45#8⟩, []) := rfl
theorem test_decode_cmdOther_escaped :
    decode [0x00#8, 0x02#8, 0x00#8, 0x05#8, 0x07#8, 0x00#8, 0x00#8] =
      .ok (.cmdOther .ch0 0 0x02#8 ⟨0x00#8, 0x05#8, [], 0x07#8⟩, []) := rfl
theorem test_decode_init :
    decode [0x01#8, 0x05#8, 0x53#8, 0xC8#8, 0x01#8, 0x50#8, 0x00#8, 0x00#8, 0x09#8, 0x53#8, 0xC8#8, 0x01#8, 0x50#8, 0x01#8, 0x14#8,
      0x00#8] = .ok (.init (std 0x05#8) (stdg 0x09#8), []) := rfl
theorem test_decode_orchTick : decode [0x02#8, 0x50#8, 0x00#8, 0x01#8] = .ok (.orchTick 80 none (some .ok), []) := rfl
theorem test_decode_chTick : decode [0x03#8, 0x00#8, 0x96#8, 0x01#8, 0x02#8] = .ok (.chTick .ch0 150 (some .fail), []) := rfl
theorem test_decode_chRx : decode [0x04#8, 0x01#8, 0x02#8, 0x0A#8] = .ok (.chRx .ch1 0x02#8 10, []) := rfl
theorem test_decode_sendCommand :
    decode [0x05#8, 0x01#8, 0x09#8, 0x44#8, 0x02#8, 0x01#8, 0x02#8, 0x01#8] =
      .ok (.sendCommand .ch1 9 0x44#8 [0x01#8, 0x02#8] (some .ok), []) := rfl
theorem test_decode_buildFrame : decode [0x06#8, 0xAC#8, 0x02#8, 0x53#8, 0x00#8, 0x10#8] = .ok (.buildFrame 300 0x53#8 [] 16, []) := rfl
theorem test_decode_checksum : decode [0x07#8, 0x03#8, 0x00#8, 0x05#8, 0x53#8] = .ok (.checksum [0x00#8, 0x05#8, 0x53#8], []) := rfl
theorem test_decode_parserConsume : decode [0x08#8, 0x00#8, 0x02#8] = .ok (.parserConsume .ch0 0x02#8, []) := rfl
theorem test_decode_parserReset : decode [0x09#8, 0x01#8] = .ok (.parserReset .ch1, []) := rfl
/-- V-I12: channel 2. -/
theorem test_decode_badChannel : decode [0x04#8, 0x02#8, 0x02#8, 0x00#8] = .error (.badChannel 0x02#8) := rfl
theorem test_decode_badAnswer : decode [0x03#8, 0x00#8, 0x00#8, 0x03#8] = .error (.badAnswer 0x03#8) := rfl
theorem test_decode_badGap : decode [0x01#8, 0x05#8, 0x53#8, 0x01#8, 0x01#8, 0x02#8] = .error (.badGap 0x02#8) := rfl
theorem test_decode_badEscape : decode [0x00#8, 0x41#8, 0x00#8, 0x05#8, 0x44#8, 0x00#8, 0x00#8] = .error (.badEscape 0x41#8) := rfl
theorem test_decode_truncated : decode [0x08#8, 0x00#8] = .error .truncated := rfl

/-! ## Opcode-table words, and a step that runs one -/

theorem test_table_cmdS : decodeTableWord 8 0x53 = some (.cmdS .ch0 0 ⟨0x00#8, 0x00#8, [0x00#8, 0x00#8], 0x00#8⟩) := by decide
theorem test_table_cmdT : decodeTableWord 23 0x54 = some (.cmdT .ch0 0 ⟨0x00#8, 0x00#8, List.replicate 22 0x00#8, 0x00#8⟩) := by decide
theorem test_table_cmdOther : decodeTableWord 8 0x00 = some (.cmdOther .ch0 0 0x00#8 ⟨0x00#8, 0x00#8, [], 0x00#8⟩) := by decide
theorem test_table_init : decodeTableWord 8 0x01 = some (.init State.noConfig State.noConfig) := by decide
theorem test_table_parserReset : decodeTableWord 8 0x09 = some (.parserReset .ch0) := by decide
theorem test_step_checksum_word : firstReturned (step (State.reset.withFetchWord 8 0x07)) = some (.checksum 0x00#8) := by decide
theorem test_step_buildFrame_word :
    firstReturned (step (State.reset.withFetchWord 8 0x06)) = some (.buildFrame (.validationError .addressOutOfRange)) := by decide
theorem test_step_parserReset_word : after (step (ready.withFetchWord 8 0x09)) = some { ready with script := (zeroTail).drop 1 } := by
  decide
theorem test_step_beforeInit : refusal (step (State.reset.withFetchWord 8 0x04)) = some .beforeInit := by decide
/-- R212 and I15: an operation with an earlier `now` has no step; one at the same time has. -/
theorem test_step_clockWentBack :
    refusal (step { polled with script := [0x04#8, 0x00#8, 0x02#8, 0x1D#8], clock := 30 }) = some (.clockWentBack 30 29) := by decide
theorem test_step_sameTime :
    (after (step { polled with script := [0x04#8, 0x00#8, 0x02#8, 0x1E#8], clock := 30 })).map (fun t => (t.clock, t.ch0.lastRxTime)) =
      some (30, 30) := by decide
/-- Log entry 4: padding is accepted. -/
theorem test_getNat_padded : getNat [0x80#8, 0x00#8] = .ok (0, []) := by decide
theorem test_step_noOperation : refusal (step State.reset) = some .noOperation := by decide

/-! ## CHECKSUM and BUILD_FRAME -/

/-- V-C2, V-I11: the source's value, before INIT. -/
theorem test_checksum_value : firstReturned (exec (.checksum [0x00#8, 0x05#8, 0x53#8]) State.reset) = some (.checksum 0x56#8) := by decide
/-- V-C9: the same bit flipped in two bytes of V-C8's list. -/
theorem test_checksum_two_flips :
    firstReturned (exec (.checksum [0x00#8, 0x05#8, 0x53#8, 0x13#8, 0x35#8]) State.reset) = some (.checksum 0x70#8) := by decide
/-- V-B15: 0x02 in the address and the payload, exact capacity. -/
theorem test_buildFrame_bytes :
    outBytes 8 (exec (.buildFrame 2 0x53#8 [0x02#8, 0x02#8] 7) State.reset) =
      some [0x02#8, 0x00#8, 0x02#8, 0x53#8, 0x02#8, 0x02#8, 0x51#8, 0x00#8] := by decide
/-- V-B11: the address check comes before the length and capacity checks. -/
theorem test_buildFrame_order :
    firstReturned (exec (.buildFrame 0 0x53#8 (upTo 23) 0) State.reset) = some (.buildFrame (.validationError .addressOutOfRange)) := by
  decide

/-! ## PARSER_CONSUME and PARSER_RESET -/

/-- V-P1, its last byte. -/
theorem test_parserConsume_success :
    firstReturned (exec (.parserConsume .ch0 0x70#8) readyEnd) =
      some (.parserConsume (.success ⟨0x05#8, 0x53#8, [0x12#8, 0x34#8]⟩)) := by decide
/-- V-P14, its last byte: CAPACITY is 4. -/
theorem test_parserConsume_overflow :
    firstReturned (exec (.parserConsume .ch0 0x12#8) readyFull) = some (.parserConsume .bufferOverflow) ∧
      parser0After (exec (.parserConsume .ch0 0x12#8) readyFull) = some (.waitSyn, 0, 0x53#8, 2) := by decide
/-- V-P20: a reset in WaitCmd. -/
theorem test_parserReset :
    parser0After (exec (.parserReset .ch0) (withParser ready (parserAt .waitCmd [0x02#8, 0x00#8, 0x05#8] 0x00#8 0))) =
      some (.waitSyn, 0, 0x00#8, 0) := by decide

/-! ## INIT -/

/-- V-I1. -/
theorem test_init_ok : (after (exec (.init (std 0x05#8) (std 0x09#8)) State.reset)).map (fun s => (s.initialized, s.cfg1, s.ch1)) =
    some (true, std 0x09#8, initialRuntime) := by decide
/-- V-I6: channel 0 is checked first. -/
theorem test_init_rejected :
    firstReturned (exec (.init (std 0x00#8) (std 0x21#8)) State.reset) = some (.init (.configRejected .ch0 .stationAddress)) := by decide

/-! ## CH_TICK and CH_RX -/

/-- V-T1. -/
theorem test_chTick_poll :
    ch0After (exec (.chTick .ch0 0 (some .ok)) ready) = some (.waitingReply, 0, 80, 0) ∧
      sendsAfter (exec (.chTick .ch0 0 (some .ok)) ready) =
        some [⟨.ch0, [0x02#8, 0x00#8, 0x05#8, 0x53#8, 0x56#8], .ok⟩] := by decide
/-- V-T11: the timeout is checked before the gap. -/
theorem test_chTick_timeout_before_gap :
    diagsAfter (exec (.chTick .ch0 80 none)
      { withParser polled (parserAt .waitAddrHi [0x02#8] 0x00#8 0) with cfg0 := stdg 0x05#8 }) = some [⟨.ch0, .replyTimeout⟩] := by decide
/-- V-R11, its first byte: `last_rx_time` is written even for discarded noise. -/
theorem test_chRx_noise : ch0After (exec (.chRx .ch0 0x55#8 40) polled) = some (.waitingReply, 0, 80, 40) := by decide
/-- V-R7, its last byte: CH_RX does not check the reply deadline. -/
theorem test_chRx_late_success :
    ch0After (exec (.chRx .ch0 0x70#8 85) polledEnd) = some (.idle, 285, 80, 85) ∧
      firstResult (exec (.chRx .ch0 0x70#8 85) polledEnd) =
        some ⟨.ch0, ⟨0x05#8, 0x53#8, [0x12#8, 0x34#8]⟩⟩ := by decide

/-! ## ORCH_TICK and SEND_COMMAND -/

/-- V-O1. -/
theorem test_orchTick_both :
    sendsAfter (exec (.orchTick 0 (some .ok) (some .ok)) ready) =
      some [⟨.ch0, [0x02#8, 0x00#8, 0x05#8, 0x53#8, 0x56#8], .ok⟩, ⟨.ch1, [0x02#8, 0x00#8, 0x09#8, 0x53#8, 0x5A#8], .ok⟩] := by decide
/-- V-O3: channel 0 is due, and its answer is absent. -/
theorem test_orchTick_refused : refusal (exec (.orchTick 0 none (some .ok)) ready) = some (.answerMissing .ch0) := by decide
/-- V-SC1. -/
theorem test_sendCommand_ok :
    sendsAfter (exec (.sendCommand .ch1 9 0x44#8 [0x01#8, 0x02#8] (some .ok)) ready) =
      some [⟨.ch1, [0x02#8, 0x00#8, 0x09#8, 0x44#8, 0x01#8, 0x02#8, 0x4E#8], .ok⟩] := by decide
/-- V-SC3: no send, no event. -/
theorem test_sendCommand_invalid :
    after (exec (.sendCommand .ch1 33 0x53#8 [] none) ready) =
      some { ready with returned := [.sendCommand (.validationError .addressOutOfRange)] } := by decide

/-! ## The frame rows -/

/-- V-R2. -/
theorem test_cmdS_delivered :
    ch0After (exec (.cmdS .ch0 30 ⟨0x00#8, 0x05#8, [0x12#8, 0x34#8], 0x70#8⟩) polled) = some (.idle, 230, 80, 30) ∧
      firstResult (exec (.cmdS .ch0 30 ⟨0x00#8, 0x05#8, [0x12#8, 0x34#8], 0x70#8⟩) polled) =
        some ⟨.ch0, ⟨0x05#8, 0x53#8, [0x12#8, 0x34#8]⟩⟩ := by decide
/-- V-R4's frame at one time: the last byte is 71. -/
theorem test_cmdS_corrupted :
    diagsAfter (exec (.cmdS .ch0 36 ⟨0x00#8, 0x05#8, [0x12#8, 0x34#8], 0x71#8⟩) polled) = some [⟨.ch0, .checksumError⟩] := by decide
/-- V-P11's frame. -/
theorem test_cmdL_delivered :
    firstResult (exec (.cmdL .ch0 0 ⟨0x00#8, 0x03#8, List.replicate 10 0xAA#8, 0x4F#8⟩) polled) =
      some ⟨.ch0, ⟨0x03#8, 0x4C#8, List.replicate 10 0xAA#8⟩⟩ := by decide
/-- V-P11's frame with 'R': 03 ⊕ 52 = 51, and ten AA cancel out. -/
theorem test_cmdR_delivered :
    firstResult (exec (.cmdR .ch0 0 ⟨0x00#8, 0x03#8, List.replicate 10 0xAA#8, 0x51#8⟩) polled) =
      some ⟨.ch0, ⟨0x03#8, 0x52#8, List.replicate 10 0xAA#8⟩⟩ := by decide
/-- V-P8's frame, the longest. -/
theorem test_cmdT_delivered :
    firstResult (exec (.cmdT .ch0 0 ⟨0x00#8, 0x01#8, upTo 22, 0x54#8⟩) polled) = some ⟨.ch0, ⟨0x01#8, 0x54#8, upTo 22⟩⟩ := by decide
/-- V-P10's frame. -/
theorem test_cmdC_delivered :
    firstResult (exec (.cmdC .ch0 0 ⟨0x00#8, 0x03#8, upTo 11, 0x4B#8⟩) polled) = some ⟨.ch0, ⟨0x03#8, 0x43#8, upTo 11⟩⟩ := by decide
/-- V-P9's frame. -/
theorem test_cmdZ_delivered :
    firstResult (exec (.cmdZ .ch0 0 ⟨0x00#8, 0x03#8, [0x01#8, 0x02#8, 0x03#8, 0x04#8, 0x05#8, 0x06#8], 0x5E#8⟩) polled) =
      some ⟨.ch0, ⟨0x03#8, 0x5A#8, [0x01#8, 0x02#8, 0x03#8, 0x04#8, 0x05#8, 0x06#8]⟩⟩ := by decide
/-- V-R9: another station's frame ends the window. -/
theorem test_cmdD_delivered :
    ch0After (exec (.cmdD .ch0 15 ⟨0x00#8, 0x07#8, [0xAA#8, 0xBB#8], 0x52#8⟩) polled) = some (.idle, 215, 80, 15) := by decide
/-- V-P4's frame: address-high 01 is accepted and not reported. -/
theorem test_cmdOther_delivered :
    firstResult (exec (.cmdOther .ch0 0 0x41#8 ⟨0x01#8, 0x05#8, [], 0x45#8⟩) polled) = some ⟨.ch0, ⟨0x05#8, 0x41#8, []⟩⟩ := by decide
/-- P5, line 5's case: a frame that arrives in Idle is discarded. -/
theorem test_cmdD_idle : after (exec (.cmdD .ch0 16 ⟨0x00#8, 0x07#8, [0xAA#8, 0xBB#8], 0x52#8⟩) ready) = some ready := by decide

/-! ## Script lines -/

/-- P5, line 6: the script's answer is dropped, because no send is made. -/
theorem test_script_send : ScriptLine.ops (.send .ch1 33 0x53#8 [] .ok) = [.sendCommand .ch1 33 0x53#8 [] none] := by decide
/-- P4, line 4, and P1, line 5, one after the other. -/
theorem test_script_bytes :
    scriptBytes [.rx .ch0 12 [0x00#8], .tick 80 none none] = [0x04#8, 0x00#8, 0x00#8, 0x0C#8, 0x02#8, 0x50#8, 0x00#8, 0x00#8] := by decide

/-! ## Witnesses: states and operands that meet the hypotheses of each statement, for each clause, at its boundary values -/

/-- The witness states, with some operations queued. -/
def queued (s : State) (bytes : List Byte) : State := { s with script := bytes }

theorem ready_inv : ready.Inv where
  parser c := by cases c <;> exact ⟨rfl, by simp [ready, State.reset, State.ch, ChannelRuntime.initial, ParserState.initial, Memory.within],
    by decide, by decide, rfl, fun h => absurd rfl h, fun h => by rcases h with h | h <;> cases h⟩
  outWf := rfl
  txWf := rfl
  txWithin := by simp [ready, State.reset, Memory.within]
  config _ c := by cases c <;> rfl

/-- A parser's buffer written from offset 0 is within its size. -/
theorem atChecksum_inv : atChecksum.Inv 32 where
  bufWf := by decide
  bufWithin := within_writeBytes (m := []) (by simp [Memory.within]) (by decide)
  indexCap := by decide
  lenMax := by decide
  indexFits := rfl
  syncFirst _ := by decide
  cmdKept _ := by decide

/-- Channel 0 waiting with its parser before the checksum byte: an invariant state that is not the reset state. -/
theorem waiting_inv : polledEnd.Inv where
  parser c := by
    cases c
    · exact atChecksum_inv
    · exact ready_inv.parser .ch1
  outWf := rfl
  txWf := rfl
  txWithin := ready_inv.txWithin
  config _ c := by cases c <;> rfl

theorem addressOk_low : AddressOk (std 0x01#8) := ⟨by decide, by decide⟩
theorem addressOk_high : AddressOk (std 0x20#8) := ⟨by decide, by decide⟩
theorem addressOk_ready (c : Chan) : AddressOk (ready.cfg c) := by cases c <;> exact ⟨by decide, by decide⟩
theorem gapOk_none (a : Byte) : GapOk (std a) := fun g h => by cases h
theorem gapOk_edge : GapOk { std 0x05#8 with gapTimeout := some 79 } := fun g h => by
  cases h
  decide
theorem not_addressOk_zero : ¬ AddressOk (std 0x00#8) := fun h => absurd h.1 (by decide)
theorem not_addressOk_above : ¬ AddressOk (std 0x21#8) := fun h => absurd h.2 (by decide)
theorem not_gapOk_edge : ¬ GapOk { std 0x05#8 with gapTimeout := some 80 } := fun h => absurd (h 80 rfl) (by decide)

theorem witness_StepPerformsTheDecodedOperation :
    State.reset.script = [] ∧
    ((queued ready [0x08#8, 0x00#8]).script ≠ [] ∧ decode (queued ready [0x08#8, 0x00#8]).script = .error .truncated) ∧
    (decode (queued ready [0x09#8, 0x01#8, 0x07#8]).script = .ok (.parserReset .ch1, [0x07#8]) ∧ timeOf (.parserReset .ch1) = none) ∧
    (decode (queued ready [0x04#8, 0x00#8, 0x02#8, 0x00#8]).script = .ok (.chRx .ch0 0x02#8 0, []) ∧
      timeOf (.chRx .ch0 0x02#8 0) = some 0 ∧ ready.clock ≤ 0 ∧ 0 < ({ ready with clock := 1 } : State).clock) :=
  ⟨rfl, ⟨by decide, rfl⟩, ⟨rfl, rfl⟩, rfl, rfl, by decide, by decide⟩
theorem witness_EncodedOperationsDecode :
    (Instr.cmdT .ch1 200 ⟨0xFF#8, 0x02#8, List.replicate 22 0x02#8, 0x00#8⟩).WellFormed ∧
    (Instr.cmdOther .ch1 0 0x09#8 ⟨0x00#8, 0x05#8, [], 0x00#8⟩).WellFormed ∧ (Instr.init (stdg 0x00#8) (std 0xFF#8)).WellFormed := by decide
theorem witness_DecodedOperationsAreWellFormed :
    decode [0x53#8, 0x00#8, 0x05#8, 0x12#8, 0x34#8, 0x70#8, 0x00#8, 0x1E#8, 0x09#8] =
      .ok (.cmdS .ch0 30 ⟨0x00#8, 0x05#8, [0x12#8, 0x34#8], 0x70#8⟩, [0x09#8]) := rfl
theorem witness_OtherChannelsAreRefused :
    0x09#8 ∈ [0x03#8, 0x04#8, 0x05#8, 0x08#8, 0x09#8] ∧ 0x02#8 ≠ 0x00#8 ∧ 0x02#8 ≠ 0x01#8 ∧
      (queued ready [0x09#8, 0x02#8]).script = 0x09#8 :: 0x02#8 :: [] := by decide
theorem witness_ChecksumDetectsOneFlipAndNotTwo : (7 : Nat) < 8 := by decide
theorem witness_BuildFrameWritesTheFrame :
    (1 ≤ 1 ∧ 1 ≤ 32 ∧ (upTo 22).length ≤ 22 ∧ 5 + (upTo 22).length ≤ 27 ∧ State.reset.outBuf.wf = true) ∧
    (1 ≤ 32 ∧ 32 ≤ 32 ∧ ([] : List Byte).length ≤ 22 ∧ 5 + ([] : List Byte).length ≤ 5) := by decide
theorem witness_BuildFrameReportsTheFirstViolation :
    ((0 < 1 ∨ 32 < 0) ∧ (33 < 1 ∨ 32 < 33)) ∧ ((1 ≤ 1 ∧ 1 ≤ 32) ∧ 22 < (upTo 23).length) ∧
    ((1 ≤ 32 ∧ 32 ≤ 32) ∧ (upTo 22).length ≤ 22 ∧ 26 < 5 + (upTo 22).length) := by decide
theorem witness_BuiltFramesParseBack :
    ready.initialized = true ∧ ready.outBuf.wf = true ∧ (ready.ch .ch1).parser.buf.wf = true ∧ 26 ≤ ready.capacity ∧
      (ready.ch .ch1).parser.pstate = .waitSyn ∧ (ready.ch .ch1).parser.index = 0 ∧ 1 ≤ 32 ∧ 32 ≤ 32 ∧
      (upTo 22).length = tableLen 0x54#8 := by decide
theorem witness_ShortPayloadsLeaveTheParserWaiting :
    ready.initialized = true ∧ (ready.ch .ch0).parser.buf.wf = true ∧ 26 ≤ ready.capacity ∧
      (ready.ch .ch0).parser.pstate = .waitSyn ∧ (ready.ch .ch0).parser.index = 0 ∧ ([] : List Byte).length < tableLen 0x53#8 ∧
      [0x12#8].length < tableLen 0x53#8 := by decide
theorem witness_WaitSynSearchesForTheSyncMarker :
    ready.initialized = true ∧ (ready.ch .ch0).parser.pstate = .waitSyn ∧ (0x03#8 : Byte) ≠ 0x02#8 ∧
      (ready.ch .ch0).parser.index < ready.capacity ∧ (ready.ch .ch0).parser.buf.wf = true ∧
      ({ ready with capacity := 0 } : State).capacity ≤ (ready.ch .ch0).parser.index := by decide
/-- Channel 0's parser is in this state, initialized, with room for a byte. -/
abbrev Room (s : State) (st : PState) : Prop :=
  s.initialized = true ∧ (s.ch .ch0).parser.pstate = st ∧ (s.ch .ch0).parser.index < s.capacity ∧ (s.ch .ch0).parser.buf.wf = true

/-- Channel 0's parser is in this state, initialized, its buffer full. -/
abbrev Full (s : State) (st : PState) : Prop :=
  s.initialized = true ∧ (s.ch .ch0).parser.pstate = st ∧ s.capacity ≤ (s.ch .ch0).parser.index

/-- Channel 0's parser after V-P20's first one, two and three bytes. -/
def atAddrHi : State := withParser ready (parserAt .waitAddrHi [0x02#8] 0x00#8 0)
def atAddrLo : State := withParser ready (parserAt .waitAddrLo [0x02#8, 0x00#8] 0x00#8 0)
def atCmd : State := withParser ready (parserAt .waitCmd [0x02#8, 0x00#8, 0x05#8] 0x00#8 0)

theorem witness_AddressBytesAreBufferedUnconditionally :
    (Room atAddrHi .waitAddrHi ∧ Full { atAddrHi with capacity := 1 } .waitAddrHi) ∧
    (Room atAddrLo .waitAddrLo ∧ Full { atAddrLo with capacity := 2 } .waitAddrLo) := by decide
theorem witness_CommandByteSelectsThePayloadLength :
    Room atCmd .waitCmd ∧ Full { atCmd with capacity := 3 } .waitCmd := by decide
theorem witness_PayloadBytesAreCounted :
    Room { withParser ready atFull with capacity := 5 } .waitData ∧ Full readyFull .waitData := by decide
theorem witness_BufferedBytesAreGuarded :
    readyFull.initialized = true ∧
    (readyFull.ch .ch0).parser.pstate ≠ .waitChecksum ∧
    ((readyFull.ch .ch0).parser.pstate = .waitSyn → (0x12#8 : Byte) = 0x02#8) ∧
    readyFull.capacity ≤ (readyFull.ch .ch0).parser.index ∧
    ((withParser ready atFull).ch .ch0).parser.index < (withParser ready atFull).capacity := by decide
theorem witness_MatchingChecksumYieldsTheFrame :
    readyEnd.initialized = true ∧ (readyEnd.ch .ch0).parser.pstate = .waitChecksum ∧
    4 ≤ (readyEnd.ch .ch0).parser.index ∧ (readyEnd.ch .ch0).parser.index ≤ readyEnd.capacity ∧
    (0x70#8 : Byte) = xorAll (bufBytes (readyEnd.ch .ch0).parser.buf 1 (readyEnd.ch .ch0).parser.index) := by decide
theorem witness_WrongChecksumIsAnError :
    readyEnd.initialized = true ∧ (readyEnd.ch .ch0).parser.pstate = .waitChecksum ∧
    4 ≤ (readyEnd.ch .ch0).parser.index ∧ (readyEnd.ch .ch0).parser.index ≤ readyEnd.capacity ∧
    (0x02#8 : Byte) ≠ xorAll (bufBytes (readyEnd.ch .ch0).parser.buf 1 (readyEnd.ch .ch0).parser.index) := by decide
theorem witness_ParserResetKeepsTheRest : readyEnd.initialized = true := by decide
theorem witness_TerminalOutcomesResetTheParser :
    (∃ t, exec (.parserConsume .ch0 0x71#8) readyEnd = .next t) ∧ ParserOutcome.checksumError ≠ .inProgress :=
  ⟨⟨_, rfl⟩, by decide⟩
theorem witness_OverflowIsUnreachableAtConformingCapacity :
    polledEnd.Inv ∧ polledEnd.initialized = true ∧ 26 ≤ polledEnd.capacity :=
  ⟨waiting_inv, by decide, by decide⟩
theorem witness_NoiseBeforeAFrameIsDiscarded :
    ready.initialized = true ∧ (ready.ch .ch0).parser.pstate = .waitSyn ∧ ∀ b ∈ [0xFF#8, 0x00#8, 0x41#8], b ≠ 0x02#8 := by decide
theorem witness_EveryFrameEndsAtItsLength :
    ready.initialized = true ∧ (ready.ch .ch0).parser.buf.wf = true ∧ 26 ≤ ready.capacity ∧
      (ready.ch .ch0).parser.pstate = .waitSyn ∧ (ready.ch .ch0).parser.index = 0 ∧
      [0x02#8, 0x02#8].length = tableLen 0x53#8 ∧ ([] : List Byte).length = tableLen 0x41#8 := by decide
theorem witness_DuePollIsSent :
    ready.initialized = true ∧ AddressOk (ready.cfg .ch0) ∧ (ready.ch .ch0).schedState = .idle ∧ (ready.ch .ch0).nextPollDeadline ≤ 0 :=
  ⟨by decide, addressOk_ready .ch0, by decide, by decide⟩
theorem witness_FailedPollIsRetriedAnIntervalLater :
    ready.initialized = true ∧ AddressOk (ready.cfg .ch1) ∧ (ready.ch .ch1).schedState = .idle ∧ (ready.ch .ch1).nextPollDeadline ≤ 0 :=
  ⟨by decide, addressOk_ready .ch1, by decide, by decide⟩

/-- Channel 0 after V-T2: a failed poll at 0. -/
def failed : State := { ready with ch0 := { ChannelRuntime.initial with nextPollDeadline := 200 } }

/-- Channel 0 in V-T8, before its ticks: two bytes buffered, the second at 12. -/
def gapped : State :=
  { withParser polled (parserAt .waitAddrLo [0x02#8, 0x00#8] 0x00#8 0) with
    cfg0 := stdg 0x05#8
    ch0 := { (withParser polled (parserAt .waitAddrLo [0x02#8, 0x00#8] 0x00#8 0)).ch0 with lastRxTime := 12 } }

theorem witness_PollNotDueDoesNothing :
    failed.initialized = true ∧ (failed.ch .ch0).schedState = .idle ∧ 199 < (failed.ch .ch0).nextPollDeadline := by decide
theorem witness_ReplyTimeoutReturnsToIdle :
    polled.initialized = true ∧ (polled.ch .ch0).schedState = .waitingReply ∧ (polled.ch .ch0).replyDeadline ≤ 80 := by decide
theorem witness_GapResetsTheParserOnly :
    gapped.initialized = true ∧ (gapped.ch .ch0).schedState = .waitingReply ∧ 33 < (gapped.ch .ch0).replyDeadline ∧
      (gapped.cfg .ch0).gapTimeout = some 20 ∧ 1 ≤ (gapped.ch .ch0).parser.index ∧ 20 < 33 - (gapped.ch .ch0).lastRxTime := by decide
theorem witness_WaitingWithNothingDueDoesNothing :
    gapped.initialized = true ∧ (gapped.ch .ch0).schedState = .waitingReply ∧ 32 < (gapped.ch .ch0).replyDeadline ∧
      ¬ GapOver (gapped.cfg .ch0) (gapped.ch .ch0) 32 := by
  refine ⟨by decide, by decide, by decide, fun ⟨g, hg, _, h⟩ => ?_⟩
  cases hg
  exact absurd h (by decide)
theorem witness_AnswersMustFitTheSend :
    Due (ready.ch .ch0) 0 ∧ ¬ Due (failed.ch .ch0) 199 ∧ ¬ Due (polled.ch .ch0) 80 ∧ (1 ≤ 1 ∧ 1 ≤ 32) ∧ (upTo 22).length ≤ 22 ∧
      ¬ (1 ≤ 33 ∧ 33 ≤ 32) ∧ 22 < (upTo 23).length :=
  ⟨⟨by decide, by decide⟩, fun h => absurd h.2 (by decide), fun h => absurd h.1 (by decide), by decide, by decide, by decide, by decide⟩
theorem witness_BytesInIdleAreDiscarded : ready.initialized = true ∧ (ready.ch .ch1).schedState = .idle := by decide
theorem witness_ForwardedByteInProgress :
    polled.initialized = true ∧ (polled.ch .ch0).schedState = .waitingReply ∧ (polled.ch .ch0).parser.pstate ≠ .waitChecksum ∧
      (polled.ch .ch0).parser.index < polled.capacity ∧
      exec (.parserConsume .ch0 0x55#8) polled = .next (consumed polled .ch0 (polled.ch .ch0).parser .inProgress) :=
  ⟨by decide, by decide, by decide, by decide, rfl⟩
theorem witness_SuccessEndsTheWindow :
    polledEnd.initialized = true ∧ (polledEnd.ch .ch0).schedState = .waitingReply ∧
    (polledEnd.ch .ch0).parser.pstate = .waitChecksum ∧
    4 ≤ (polledEnd.ch .ch0).parser.index ∧ (polledEnd.ch .ch0).parser.index ≤ polledEnd.capacity ∧
    (0x70#8 : Byte) = xorAll (bufBytes (polledEnd.ch .ch0).parser.buf 1 (polledEnd.ch .ch0).parser.index) := by decide
theorem witness_ChecksumErrorEndsTheWindow :
    polledEnd.initialized = true ∧ (polledEnd.ch .ch0).schedState = .waitingReply ∧
    (polledEnd.ch .ch0).parser.pstate = .waitChecksum ∧
    4 ≤ (polledEnd.ch .ch0).parser.index ∧ (polledEnd.ch .ch0).parser.index ≤ polledEnd.capacity ∧
    (0x71#8 : Byte) ≠ xorAll (bufBytes (polledEnd.ch .ch0).parser.buf 1 (polledEnd.ch .ch0).parser.index) := by decide
theorem witness_BufferOverflowEndsTheWindow :
    polledFull.initialized = true ∧
    (polledFull.ch .ch0).schedState = .waitingReply ∧
    polledFull.capacity ≤ (polledFull.ch .ch0).parser.index ∧
    (polledFull.ch .ch0).parser.pstate ≠ .waitChecksum ∧
    ((polledFull.ch .ch0).parser.pstate = .waitSyn → (0x12#8 : Byte) = 0x02#8) := by decide
theorem witness_PollsGoOutOnlyFromIdle :
    (∀ c addr cmd payload a, Instr.orchTick 0 (some .ok) (some .fail) ≠ .sendCommand c addr cmd payload a) ∧
      ∃ t, exec (.orchTick 0 (some .ok) (some .fail)) ready = .next t := ⟨fun _ _ _ _ _ h => (by cases h), _, rfl⟩
theorem witness_EachWindowEndsInExactlyOneWay :
    polled.initialized = true ∧ (polled.ch .ch0).schedState = .waitingReply ∧
      ∃ t, exec (.chTick .ch0 80 none) polled = .next t ∧ (t.ch .ch0).schedState = .idle := ⟨rfl, rfl, _, rfl, rfl⟩
theorem witness_PollCyclesAreBounded :
    polled.initialized = true ∧ (polled.ch .ch0).schedState = .waitingReply ∧ (polled.ch .ch0).replyDeadline ≤ 80 := by decide
theorem witness_InitSetsEveryField :
    State.reset.initialized = false ∧ AddressOk (std 0x01#8) ∧ GapOk (std 0x01#8) ∧ AddressOk (std 0x20#8) ∧
      GapOk { std 0x05#8 with gapTimeout := some 79 } := ⟨rfl, addressOk_low, gapOk_none _, addressOk_high, gapOk_edge⟩
theorem witness_InitRejectsBadConfigurations :
    State.reset.initialized = false ∧ ¬ AddressOk (std 0x00#8) ∧ ¬ AddressOk (std 0x21#8) ∧ AddressOk (std 0x20#8) ∧ GapOk (std 0x20#8) ∧
      AddressOk { std 0x05#8 with gapTimeout := some 80 } ∧ ¬ GapOk { std 0x05#8 with gapTimeout := some 80 } :=
  ⟨rfl, not_addressOk_zero, not_addressOk_above, addressOk_high, gapOk_none _, ⟨by decide, by decide⟩, not_gapOk_edge⟩
theorem witness_AdmissionFollowsInit :
    State.reset.initialized = false ∧ ¬ NeedsNoInit (.chRx .ch0 0x02#8 0) ∧ NeedsNoInit (.checksum []) ∧ ready.initialized = true :=
  ⟨rfl, fun h => h, trivial, rfl⟩
theorem witness_FirstTickAttemptsThePoll :
    State.reset.initialized = false ∧ AddressOk (std 0x01#8) ∧ GapOk (std 0x01#8) ∧ AddressOk (std 0x20#8) ∧ GapOk (std 0x20#8) :=
  ⟨rfl, addressOk_low, gapOk_none _, addressOk_high, gapOk_none _⟩
theorem witness_OrchTickTicksBothChannels :
    ready.initialized = true ∧ AddressOk ready.cfg0 ∧ AddressOk ready.cfg1 ∧ AnswerFits polled.ch0 80 none ∧
      AnswerFits polled.ch1 80 (some .fail) ∧ ¬ (AnswerFits ready.ch0 0 none ∧ AnswerFits ready.ch1 0 (some .ok)) :=
  ⟨rfl, addressOk_ready .ch0, addressOk_ready .ch1, ⟨fun h => absurd rfl h, fun h => absurd h.1 (by decide)⟩,
    ⟨fun _ => ⟨by decide, by decide⟩, fun _ => by decide⟩, fun h => absurd (h.1.2 ⟨by decide, by decide⟩) (by decide)⟩
theorem witness_SendCommandSendsOneFrame :
    ready.initialized = true ∧ ready.txBuf.wf = true ∧ (1 ≤ 1 ∧ 1 ≤ 32) ∧ (1 ≤ 32 ∧ 32 ≤ 32) ∧ (upTo 22).length ≤ 22 ∧
      ¬ (1 ≤ 0 ∧ 0 ≤ 32) ∧ ¬ (1 ≤ 33 ∧ 33 ≤ 32) ∧ 22 < (upTo 23).length := by decide

/-- V-P1's frame, less its sync marker and command byte. -/
def replyS : WireFrame := ⟨0x00#8, 0x05#8, [0x12#8, 0x34#8], 0x70#8⟩

theorem witness_ReceivedFrameIsDelivered :
    polled.initialized = true ∧ (polled.ch .ch0).schedState = .waitingReply ∧ (polled.ch .ch0).parser.buf.wf = true ∧
      26 ≤ polled.capacity ∧ (polled.ch .ch0).parser.pstate = .waitSyn ∧ (polled.ch .ch0).parser.index = 0 ∧
      replyS.payload.length = tableLen 0x53#8 ∧
      replyS.checksum = xorAll ([replyS.addrHi, replyS.addrLo, 0x53#8] ++ replyS.payload) := by decide
theorem witness_CorruptedFrameIsReported :
    polled.initialized = true ∧ (polled.ch .ch0).schedState = .waitingReply ∧ (polled.ch .ch0).parser.buf.wf = true ∧
      26 ≤ polled.capacity ∧ (polled.ch .ch0).parser.pstate = .waitSyn ∧ (polled.ch .ch0).parser.index = 0 ∧
      ({ replyS with checksum := 0x71#8 } : WireFrame).payload.length = tableLen 0x53#8 ∧
      ({ replyS with checksum := 0x71#8 } : WireFrame).checksum ≠ xorAll ([replyS.addrHi, replyS.addrLo, 0x53#8] ++ replyS.payload) := by
  decide
theorem witness_FramesInIdleAreDiscarded : ready.initialized = true ∧ (ready.ch .ch0).schedState = .idle := by decide

/-- The queued last byte of V-P1. -/
def queuedLast : State := queued polledEnd [0x04#8, 0x00#8, 0x70#8, 0x1E#8]

theorem witness_EveryStepKeepsTheInvariant : queuedLast.Inv ∧ ∃ t, step queuedLast = .next t :=
  ⟨⟨fun c => by cases c <;> first | exact waiting_inv.parser .ch0 | exact waiting_inv.parser .ch1, rfl, rfl, waiting_inv.txWithin,
    fun _ c => by cases c <;> rfl⟩, _, rfl⟩
theorem witness_NoInputStopsTheBlock :
    polledEnd.Inv ∧ polledEnd.initialized = true ∧
      (AnswerFits (polledEnd.ch .ch0) 80 none ∧ AnswerFits polledEnd.ch0 0 none ∧ AnswerFits polledEnd.ch1 0 (some .fail)) ∧
      ((some SendResult.ok ≠ none ↔ (1 ≤ 32 ∧ 32 ≤ 32) ∧ (upTo 22).length ≤ 22) ∧
        ((none : Option SendResult) ≠ none ↔ (1 ≤ 33 ∧ 33 ≤ 32) ∧ (upTo 23).length ≤ 22)) :=
  ⟨waiting_inv, by decide, ⟨⟨fun h => absurd rfl h, fun h => absurd h.1 (by decide)⟩,
    ⟨fun h => absurd rfl h, fun h => absurd h.1 (by decide)⟩, fun _ => ⟨by decide, by decide⟩, fun _ => by decide⟩, by decide⟩
theorem witness_TheClockNeverGoesBack :
    ReceivedInThePast queuedLast ∧ (∃ t, step queuedLast = .next t) ∧
      decode queuedLast.script = .ok (.chRx .ch0 0x70#8 30, []) ∧ timeOf (.chRx .ch0 0x70#8 30) = some 30 :=
  ⟨fun c => by cases c <;> decide, ⟨_, rfl⟩, rfl, rfl⟩
theorem witness_ConfigurationIsFixedAfterInit :
    ready.initialized = true ∧ ∃ t, exec (.orchTick 0 (some .ok) (some .ok)) ready = .next t := ⟨rfl, _, rfl⟩
theorem witness_ChannelsAreDisjoint :
    chanOf (.chTick .ch0 0 (some .ok)) = some .ch0 ∧ Chan.ch1 ≠ .ch0 ∧ ∃ t, exec (.chTick .ch0 0 (some .ok)) ready = .next t :=
  ⟨rfl, by decide, _, rfl⟩
/-- Two states that agree on channel 1 alone. -/
theorem witness_ChannelBehaviourIgnoresTheOtherChannel :
    chanOf (.chTick .ch1 0 (some .ok)) = some .ch1 ∧ ready.initialized = gapped.initialized ∧ ready.capacity = gapped.capacity ∧
      ready.cfg .ch1 = gapped.cfg .ch1 ∧ ready.ch .ch1 = gapped.ch .ch1 ∧ ready ≠ gapped := by decide
theorem witness_StreamsOnlyGrow : ∃ t, exec (.chRx .ch0 0x70#8 30) polledEnd = .next t := ⟨_, rfl⟩
theorem witness_ObservationsAreNeverRead : ∃ t, exec (.sendCommand .ch1 9 0x5A#8 [] (some .fail)) ready = .next t := ⟨_, rfl⟩
theorem witness_FieldsChangeOnlyByTheirWriters :
    (∃ t, exec (.orchTick 0 (some .ok) (some .ok)) ready = .next t) ∧ (∃ t, exec (.chTick .ch0 80 none) polled = .next t) ∧
      (∃ t, exec (frameRow 0x53#8 .ch0 30 replyS) polled = .next t) ∧ (∃ t, exec (.buildFrame 5 0x53#8 [] 5) polled = .next t) ∧
      (∃ t, exec (.checksum []) polled = .next t) ∧
      (∃ t, exec (.chRx .ch0 0x02#8 10) polled = .next t) ∧ (∃ t, exec (.sendCommand .ch0 7 0x44#8 [] (some .ok)) polled = .next t) ∧
      (∃ t, exec (.parserConsume .ch0 0x70#8) polledEnd = .next t) ∧
      ∃ t, exec (.parserReset .ch0) polledEnd = .next t :=
  ⟨⟨_, rfl⟩, ⟨_, rfl⟩, ⟨_, rfl⟩, ⟨_, rfl⟩, ⟨_, rfl⟩, ⟨_, rfl⟩, ⟨_, rfl⟩, ⟨_, rfl⟩, _, rfl⟩
theorem witness_BytesChangeOnlyByTheirWriters :
    polledEnd.Inv ∧ polledEnd.initialized = true ∧
      (∃ t, exec (.buildFrame 5 0x53#8 [] 16) polledEnd = .next t) ∧
      (∃ t, exec (.sendCommand .ch0 7 0x44#8 [] (some .ok)) polledEnd = .next t) ∧
      (∃ t, exec (.chTick .ch0 80 none) polledEnd = .next t) ∧ fedBy (.chTick .ch0 80 none) ≠ some .ch0 ∧
      (∃ t, exec (.chRx .ch0 0x70#8 30) polledEnd = .next t) ∧ fedBy (.chRx .ch0 0x70#8 30) ≠ some .ch1 ∧
      (∃ t, exec (.parserConsume .ch0 0x70#8) polledEnd = .next t) ∧ ∃ t, exec (frameRow 0x53#8 .ch0 30 replyS) polledEnd = .next t :=
  ⟨waiting_inv, by decide, ⟨_, rfl⟩, ⟨_, rfl⟩, ⟨_, rfl⟩, by decide, ⟨_, rfl⟩, by decide, ⟨_, rfl⟩, _, rfl⟩

/-- `ready` with other values in the fields R47 names. -/
def stale : State :=
  { ready with ch0 := { ready.ch0 with
      replyDeadline := 7
      lastRxTime := 9
      parser := { ready.ch0.parser with cmd := 0x53#8, expectedLen := 2 } } }

/-- Two different states that agree on everything that is read before it is written. -/
theorem witness_StaleFieldsAreUnobservable :
    (∀ c b, Instr.chTick .ch0 0 (some .ok) ≠ .parserConsume c b) ∧ Agrees ready stale ∧ ready ≠ stale ∧ ready.Inv ∧ stale.Inv ∧
      ∃ t, exec (.chTick .ch0 0 (some .ok)) ready = .next t := by
  refine ⟨fun _ _ h => (by cases h), ⟨rfl, fun c => by cases c <;> rfl, fun c => ?_, rfl, rfl, rfl, rfl, rfl, rfl⟩, by decide, ready_inv,
    ⟨fun c => ?_, rfl, rfl, ready_inv.txWithin, fun _ c => by cases c <;> rfl⟩, _, rfl⟩
  · cases c <;> exact ⟨rfl, rfl, fun h => (by cases h), fun h => (by cases h), rfl, rfl, fun _ _ => rfl,
      fun h => by rcases h with h | h <;> cases h⟩
  · cases c <;> exact ⟨rfl, by simp [stale, ready, State.reset, State.ch, ChannelRuntime.initial, ParserState.initial, Memory.within],
      by decide, by decide, rfl, fun h => absurd rfl h, fun h => by rcases h with h | h <;> cases h⟩

end Sys2Proof.Tests
end

section
/-! The scope of one operation (00_scope.md): a step performs the operation the host's bytes decode to (O1), no operation reads the
observation (O57), and an operation only appends to it and leaves the model's own fields alone (O56). -/

namespace Sys2Proof.Machine

open Sys2Proof.Spec

/-! ## A step -/

theorem nowOf_eq_timeOf (i : Instr) : nowOf i = timeOf i := by cases i <;> rfl

/-- An operation without a `now` leaves the clock (R82). -/
theorem clockAfter_untimed {i : Instr} (clock : Nat) (h : timeOf i = none) : clockAfter clock i = .ok clock := by
  rw [clockAfter, nowOf_eq_timeOf, h]

/-- A `now` that does not go back becomes the clock (R130). -/
theorem clockAfter_timed {clock now : Nat} {i : Instr} (h : timeOf i = some now) (hle : clock ≤ now) :
    clockAfter clock i = .ok now := by
  rw [clockAfter, nowOf_eq_timeOf, h]
  exact if_neg (Nat.not_lt.2 hle)

/-- A `now` that goes back is refused (R212, I15). -/
theorem clockAfter_late {clock now : Nat} {i : Instr} (h : timeOf i = some now) (hlt : now < clock) :
    clockAfter clock i = .error (.clockWentBack clock now) := by
  rw [clockAfter, nowOf_eq_timeOf, h]
  exact if_pos hlt

theorem fetch_empty {s : State} (h : s.script = []) : fetch s = .error .noOperation := by
  simp [fetch, h]

theorem fetch_undecodable {s : State} {e : DecodeError} (hne : s.script ≠ []) (h : decode s.script = .error e) :
    fetch s = .error (.notAnOperation e) := by
  obtain ⟨b, bs, hs⟩ := List.exists_cons_of_ne_nil hne
  rw [hs] at h
  simp [fetch, hs, h]

/-- Decoded bytes are fetched or refused as the clock says. -/
theorem fetch_decoded {s : State} {i : Instr} {rest : List Byte} (h : decode s.script = .ok (i, rest)) :
    fetch s = (clockAfter s.clock i).map fun now => (i, { s with script := rest, clock := now }) := by
  cases hs : s.script with
  | nil => simp [hs, decode] at h
  | cons b bs =>
    rw [hs] at h
    cases hc : clockAfter s.clock i <;> simp [fetch, hs, h, hc, Except.map]

theorem step_of_fetch_error {s : State} {r : Refusal} (h : fetch s = .error r) : step s = .refused r := by
  rw [step, h]

theorem step_of_fetch_ok {s s' : State} {i : Instr} (h : fetch s = .ok (i, s')) : step s = exec i s' := by
  rw [step, h]

/-- Settles O1: by what fetch answers on the script and the clock. -/
theorem stepPerformsTheDecodedOperation : Obligations.StepPerformsTheDecodedOperation := by
  intro s
  refine ⟨fun h => step_of_fetch_error (fetch_empty h), fun e hne h => step_of_fetch_error (fetch_undecodable hne h),
    fun i rest h => ⟨fun ht => ?_, fun now ht hle => ?_, fun now ht hlt => ?_⟩⟩
  · exact step_of_fetch_ok (by rw [fetch_decoded h, clockAfter_untimed _ ht]; rfl)
  · exact step_of_fetch_ok (by rw [fetch_decoded h, clockAfter_timed ht hle]; rfl)
  · exact step_of_fetch_error (by rw [fetch_decoded h, clockAfter_late ht hlt]; rfl)

/-! ## Putting earlier observations before a state's own

Every operation commutes with it. So what an operation appends does not depend on what was observed before. -/

/-- The four streams of R15. -/
structure Observation where
  sends : List SendRecord
  results : List ResultRecord
  diags : List DiagRecord
  returned : List Returned

/-- `s` with the streams of `o` observed before its own. -/
def State.observedAfter (s : State) (o : Observation) : State :=
  { s with
    sends := o.sends ++ s.sends
    results := o.results ++ s.results
    diags := o.diags ++ s.diags
    returned := o.returned ++ s.returned }

/-- `s` with nothing observed yet. -/
def State.unobserved (s : State) : State := { s with sends := [], results := [], diags := [], returned := [] }

/-- Any observation put before that of `s.unobserved` is the whole observation. -/
theorem unobserved_observedAfter (s : State) (o : Observation) :
    s.unobserved.observedAfter o =
      { s with sends := o.sends, results := o.results, diags := o.diags, returned := o.returned } := by
  simp [State.unobserved, State.observedAfter]

section Fields
variable (s : State) (o : Observation) (c : Chan)

@[simp] theorem observedAfter_initialized : (s.observedAfter o).initialized = s.initialized := rfl
@[simp] theorem observedAfter_cfg : (s.observedAfter o).cfg c = s.cfg c := by cases c <;> rfl
@[simp] theorem observedAfter_ch : (s.observedAfter o).ch c = s.ch c := by cases c <;> rfl
@[simp] theorem observedAfter_capacity : (s.observedAfter o).capacity = s.capacity := rfl

end Fields

section Commutes
variable (s : State) (o : Observation) (c : Chan) (now : Nat)

@[simp] theorem setCh_observedAfter (r : ChannelRuntime) :
    (s.observedAfter o).setCh c r = (s.setCh c r).observedAfter o := by cases c <;> rfl

@[simp] theorem setParser_observedAfter (p : ParserState) :
    (s.observedAfter o).setParser c p = (s.setParser c p).observedAfter o := by simp [State.setParser]

@[simp] theorem toIdle_observedAfter : (s.observedAfter o).toIdle c now = (s.toIdle c now).observedAfter o := by
  simp [State.toIdle]

@[simp] theorem emitResult_observedAfter (f : Frame) :
    (s.observedAfter o).emitResult c f = (s.emitResult c f).observedAfter o := by
  simp [State.emitResult, State.observedAfter]

@[simp] theorem emitDiag_observedAfter (ev : DiagEvent) :
    (s.observedAfter o).emitDiag c ev = (s.emitDiag c ev).observedAfter o := by
  simp [State.emitDiag, State.observedAfter]

@[simp] theorem recordSend_observedAfter (bytes : List Byte) (a : SendResult) :
    (s.observedAfter o).recordSend c bytes a = (s.recordSend c bytes a).observedAfter o := by
  simp [State.recordSend, State.observedAfter]

@[simp] theorem ret_observedAfter (v : Returned) : (s.observedAfter o).ret v = (s.ret v).observedAfter o := by
  simp [State.ret, State.observedAfter]

@[simp] theorem initState_observedAfter (k0 k1 : ChannelConfig) :
    initState k0 k1 (s.observedAfter o) = (initState k0 k1 s).observedAfter o := rfl

/-! CH_TICK, in each of the cases R132 to R137 -/

@[simp] theorem pollSent_observedAfter : pollSent c now (s.observedAfter o) = (pollSent c now s).observedAfter o := by
  simp [pollSent]

@[simp] theorem pollFailed_observedAfter : pollFailed c now (s.observedAfter o) = (pollFailed c now s).observedAfter o := by
  simp [pollFailed]

@[simp] theorem tickWaiting_observedAfter : tickWaiting c now (s.observedAfter o) = (tickWaiting c now s).observedAfter o := by
  simp only [tickWaiting, observedAfter_ch, observedAfter_cfg]
  split
  · simp [replyTimedOut]
  · split
    · simp [gapReset]
    · rfl

theorem tick_observedAfter (a : Option SendResult) :
    tick c now a (s.observedAfter o) = (tick c now a s).map (·.observedAfter o) := by
  simp only [tick, observedAfter_ch]
  cases tickSends (s.ch c) now with
  | true => rcases a with _ | _ | _ <;> simp [Except.map]
  | false =>
    cases a with
    | some r => rfl
    | none => cases (s.ch c).schedState <;> simp [Except.map]

theorem tickBoth_observedAfter (a0 a1 : Option SendResult) :
    tickBoth now a0 a1 (s.observedAfter o) = (tickBoth now a0 a1 s).map (·.observedAfter o) := by
  simp only [tickBoth, tick_observedAfter]
  cases tick .ch0 now a0 s with
  | error r => rfl
  | ok u => simp [Except.map, tick_observedAfter]

/-! CH_RX -/

@[simp] theorem onOutcome_observedAfter (x : ParserOutcome) :
    onOutcome c now x (s.observedAfter o) = (onOutcome c now x s).observedAfter o := by
  cases x <;> simp [onOutcome]

theorem rxByte_observedAfter (b : Byte) :
    rxByte c b now (s.observedAfter o) = (rxByte c b now s).map (·.observedAfter o) := by
  simp only [rxByte, observedAfter_ch, observedAfter_capacity]
  cases (s.ch c).schedState with
  | idle => rfl
  | waitingReply => cases consume c s.capacity (s.ch c).parser b <;> simp [Except.map]

theorem rxBytes_observedAfter (bs : List Byte) :
    rxBytes c now bs (s.observedAfter o) = (rxBytes c now bs s).map (·.observedAfter o) := by
  induction bs generalizing s with
  | nil => rfl
  | cons b bs ih =>
    simp only [rxBytes, rxByte_observedAfter]
    cases rxByte c b now s with
    | error e => rfl
    | ok u => exact ih u

/-! SEND_COMMAND -/

theorem commandSent_observedAfter (frame : List Byte) (a : SendResult) :
    commandSent c frame a (s.observedAfter o) = (commandSent c frame a s).observedAfter o := by
  cases a <;> simp [commandSent]

theorem send_observedAfter (addr : Nat) (cmd : Byte) (payload : List Byte) (a : Option SendResult) :
    send c addr cmd payload a (s.observedAfter o) = (send c addr cmd payload a s).map (·.observedAfter o) := by
  unfold send
  cases validate addr payload.length Config.txBufSize with
  | some r => cases a <;> simp [Except.map]
  | none =>
    cases a with
    | none => rfl
    | some x => exact congrArg Except.ok (commandSent_observedAfter { s with txBuf := _ } o c _ x)

end Commutes

/-! ## Outcomes -/

/-- The outcome with `g` applied to its next state, if it is one. -/
def mapNext (g : State → State) : Host.Outcome State Fault Refusal → Host.Outcome State Fault Refusal
  | .next s => .next (g s)
  | .fault f => .fault f
  | .refused r => .refused r

theorem mapNext_eq_next {g : State → State} {x : Host.Outcome State Fault Refusal} {t : State} (h : mapNext g x = .next t) :
    ∃ u, x = .next u ∧ t = g u := by
  cases x with
  | next u => cases h; exact ⟨u, rfl, rfl⟩
  | fault f => cases h
  | refused r => cases h

theorem ofRefusal_map (g : State → State) (x : Except Refusal State) : ofRefusal (x.map g) = mapNext g (ofRefusal x) := by
  cases x <;> rfl

theorem ofFault_map (g : State → State) (x : Except Fault State) : ofFault (x.map g) = mapNext g (ofFault x) := by
  cases x <;> rfl

theorem admitted_observedAfter (s : State) (o : Observation) (x : Host.Outcome State Fault Refusal) :
    admitted (s.observedAfter o) (mapNext (·.observedAfter o) x) = mapNext (·.observedAfter o) (admitted s x) := by
  unfold admitted
  rw [observedAfter_initialized]
  cases s.initialized <;> rfl

/-- Every operation does the same after earlier observations as without them, stops included (R15, R188). -/
theorem exec_observedAfter (i : Instr) (s : State) (o : Observation) :
    exec i (s.observedAfter o) = mapNext (·.observedAfter o) (exec i s) := by
  have frameCase : ∀ cmd c now f, frameOf i = some (cmd, c, now, f) →
      exec i (s.observedAfter o) = mapNext (·.observedAfter o) (exec i s) := fun cmd c now f hf => by
    rw [exec_frame hf, exec_frame hf, rxBytes_observedAfter, ofFault_map, admitted_observedAfter]
  cases i with
  | cmdS c now f => exact frameCase _ _ _ _ rfl
  | cmdL c now f => exact frameCase _ _ _ _ rfl
  | cmdR c now f => exact frameCase _ _ _ _ rfl
  | cmdT c now f => exact frameCase _ _ _ _ rfl
  | cmdC c now f => exact frameCase _ _ _ _ rfl
  | cmdZ c now f => exact frameCase _ _ _ _ rfl
  | cmdD c now f => exact frameCase _ _ _ _ rfl
  | cmdOther c now cmd f => exact frameCase _ _ _ _ rfl
  | init k0 k1 =>
    simp only [exec, execInit, observedAfter_initialized, initState_observedAfter, ret_observedAfter]
    split
    · rfl
    · cases initFault k0 k1 <;> rfl
  | orchTick now a0 a1 =>
    simp only [exec, execOrchTick, tickBoth_observedAfter, ofRefusal_map, admitted_observedAfter]
  | chTick c now a =>
    simp only [exec, execChTick, tick_observedAfter, ofRefusal_map, admitted_observedAfter]
  | chRx c b now =>
    simp only [exec, execChRx, rxByte_observedAfter, ofFault_map, admitted_observedAfter]
  | sendCommand c addr cmd payload a =>
    simp only [exec, execSendCommand, send_observedAfter, ofRefusal_map, admitted_observedAfter]
  | buildFrame addr cmd payload outCap =>
    exact congrArg Host.Outcome.next (ret_observedAfter { s with outBuf := _ } o _)
  | checksum bytes => exact congrArg Host.Outcome.next (ret_observedAfter s o _)
  | parserConsume c b =>
    simp only [exec, execParserConsume, observedAfter_ch, observedAfter_capacity, setParser_observedAfter, ret_observedAfter]
    rw [← admitted_observedAfter]
    cases consume c s.capacity (s.ch c).parser b <;> rfl
  | parserReset c =>
    simp only [exec, execParserReset, observedAfter_ch, setParser_observedAfter]
    exact admitted_observedAfter s o (.next _)

/-- Settles O57: the operation is run from `s` with nothing observed, and what it shows there is what it appends, whatever was observed
before. -/
theorem observationsAreNeverRead : Obligations.ObservationsAreNeverRead := by
  intro i s t xs ys zs vs h
  have hrun : ∀ o : Observation, exec i { s with sends := o.sends, results := o.results, diags := o.diags, returned := o.returned } =
      mapNext (·.observedAfter o) (exec i s.unobserved) := fun o => by
    rw [← unobserved_observedAfter, exec_observedAfter]
  have hself := hrun ⟨s.sends, s.results, s.diags, s.returned⟩
  obtain ⟨u, hu, rfl⟩ := mapNext_eq_next (hself.symm.trans h)
  refine ⟨u.sends, u.results, u.diags, u.returned, rfl, rfl, rfl, rfl, ?_⟩
  rw [hrun ⟨xs, ys, zs, vs⟩, hu]
  rfl

/-! ## The fields that are the model's own -/

theorem onChannel_keeps_capacity_script_clock {c : Chan} {s t : State} (h : OnChannel c s t) :
    t.capacity = s.capacity ∧ t.script = s.script ∧ t.clock = s.clock :=
  ⟨h.capacity, h.script, h.clock⟩

/-- An operation leaves CAPACITY, the queue and the clock alone (R54; log entries 3, 7 and 12). -/
theorem exec_keeps_capacity_script_clock {i : Instr} {s t : State} (h : exec i s = .next t) :
    t.capacity = s.capacity ∧ t.script = s.script ∧ t.clock = s.clock := by
  cases exec_next h with
  | frame _ _ hrx => exact onChannel_keeps_capacity_script_clock (rxBytes_onChannel hrx)
  | initRejected _ _ ht => subst ht; exact ⟨rfl, rfl, rfl⟩
  | initOk _ _ ht => subst ht; exact ⟨rfl, rfl, rfl⟩
  | orchTick _ h0 h1 =>
    obtain ⟨hcap, hscript, hclock⟩ := onChannel_keeps_capacity_script_clock (tick_onChannel h0)
    obtain ⟨hcap', hscript', hclock'⟩ := onChannel_keeps_capacity_script_clock (tick_onChannel h1)
    exact ⟨hcap'.trans hcap, hscript'.trans hscript, hclock'.trans hclock⟩
  | chTick _ htick => exact onChannel_keeps_capacity_script_clock (tick_onChannel htick)
  | chRx _ hrx => exact onChannel_keeps_capacity_script_clock (rxByte_onChannel hrx)
  | sendCommand _ hsend =>
    rcases send_cases hsend with ⟨_, -, -, rfl⟩ | ⟨x, -, -, rfl⟩
    · exact ⟨rfl, rfl, rfl⟩
    · cases x <;> exact ⟨rfl, rfl, rfl⟩
  | buildFrame ht => subst ht; exact ⟨rfl, rfl, rfl⟩
  | checksum ht => subst ht; exact ⟨rfl, rfl, rfl⟩
  | parserConsume _ _ ht => subst ht; simp [State.setParser]
  | parserReset _ ht => subst ht; simp [State.setParser]

/-- Settles O56: the streams are extended by what O57 says an operation appends, the other fields are kept. -/
theorem streamsOnlyGrow : Obligations.StreamsOnlyGrow := by
  intro i s t h
  obtain ⟨sent, delivered, emitted, values, hsends, hresults, hdiags, hreturned, -⟩ := observationsAreNeverRead i s t [] [] [] [] h
  exact ⟨⟨sent, hsends.symm⟩, ⟨delivered, hresults.symm⟩, ⟨emitted, hdiags.symm⟩, ⟨values, hreturned.symm⟩,
    exec_keeps_capacity_script_clock h⟩

end Sys2Proof.Machine
end

section
/-! What every operation keeps: an operation that names a channel acts on it alone (O54), the configuration (O39, O53), and the invariant
(O49, O50). -/

namespace Sys2Proof.Machine

open Sys2Proof.Spec

/-! ## The operations, the eight frame rows as one -/

/-- A case split over the operations in which the eight frame rows are one case (log entry 5). -/
theorem rowCases {M : Instr → Prop} (frame : ∀ {i cmd c now f}, frameOf i = some (cmd, c, now, f) → M i)
    (init : ∀ k0 k1, M (.init k0 k1)) (orchTick : ∀ now a0 a1, M (.orchTick now a0 a1)) (chTick : ∀ c now a, M (.chTick c now a))
    (chRx : ∀ c b now, M (.chRx c b now))
    (sendCommand : ∀ c addr cmd payload a, M (.sendCommand c addr cmd payload a))
    (buildFrame : ∀ addr cmd payload outCap, M (.buildFrame addr cmd payload outCap)) (checksum : ∀ bytes, M (.checksum bytes))
    (parserConsume : ∀ c b, M (.parserConsume c b)) (parserReset : ∀ c, M (.parserReset c)) (i : Instr) : M i := by
  cases i with
  | cmdS => exact frame rfl
  | cmdL => exact frame rfl
  | cmdR => exact frame rfl
  | cmdT => exact frame rfl
  | cmdC => exact frame rfl
  | cmdZ => exact frame rfl
  | cmdD => exact frame rfl
  | cmdOther => exact frame rfl
  | init => exact init _ _
  | orchTick => exact orchTick _ _ _
  | chTick => exact chTick _ _ _
  | chRx => exact chRx _ _ _
  | sendCommand => exact sendCommand _ _ _ _ _
  | buildFrame => exact buildFrame _ _ _ _
  | checksum => exact checksum _
  | parserConsume => exact parserConsume _ _
  | parserReset => exact parserReset _

section FrameRows
variable {i : Instr} {cmd : Byte} {c : Chan} {now : Nat} {f : WireFrame}

theorem chanOf_frame (h : frameOf i = some (cmd, c, now, f)) : chanOf i = some c := by
  cases i <;> simp_all [frameOf, chanOf]

theorem fedBy_frame (h : frameOf i = some (cmd, c, now, f)) : fedBy i = some c := by
  cases i <;> simp_all [frameOf, fedBy]

/-- The row of a command byte receives frames with that command byte (R76, R77). -/
theorem frameOf_frameRow (cmd : Byte) (c : Chan) (now : Nat) (f : WireFrame) :
    frameOf (frameRow cmd c now f) = some (cmd, c, now, f) := by
  have listed : ∀ n : Byte, cmd.toNat = n.toNat → some (n, c, now, f) = some (cmd, c, now, f) := fun n h => by
    rw [BitVec.eq_of_toNat_eq h]
  unfold frameRow
  split
  case h_1 h => exact listed cmdByteS h
  case h_2 h => exact listed cmdByteL h
  case h_3 h => exact listed cmdByteR h
  case h_4 h => exact listed cmdByteT h
  case h_5 h => exact listed cmdByteC h
  case h_6 h => exact listed cmdByteZ h
  case h_7 h => exact listed cmdByteD h
  case h_8 => rfl

theorem wireBytes_length (cmd : Byte) (f : WireFrame) : (wireBytes cmd f).length = 5 + f.payload.length := by
  simp [wireBytes]
  omega

end FrameRows

/-! ## The runtime record each operation leaves -/

section Records
variable (c d : Chan) (now : Nat) (s : State)

@[simp] theorem setParser_ch_self (p : ParserState) : (s.setParser c p).ch c = { s.ch c with parser := p } := setCh_ch_self ..

@[simp] theorem toIdle_ch_self :
    (s.toIdle c now).ch c = { s.ch c with schedState := .idle, nextPollDeadline := now + (s.cfg c).pollInterval } := setCh_ch_self ..

@[simp] theorem pollSent_ch_self : (pollSent c now s).ch c =
    { s.ch c with
      schedState := .waitingReply
      replyDeadline := now + (s.cfg c).replyTimeout
      parser := resetParser (s.ch c).parser } := by
  simp [pollSent]

@[simp] theorem pollFailed_ch_self :
    (pollFailed c now s).ch c = { s.ch c with nextPollDeadline := now + (s.cfg c).pollInterval } := by
  simp [pollFailed]

@[simp] theorem replyTimedOut_ch_self : (replyTimedOut c now s).ch c =
    { s.ch c with
      schedState := .idle
      nextPollDeadline := now + (s.cfg c).pollInterval
      parser := resetParser (s.ch c).parser } := by
  simp [replyTimedOut, State.setParser]

@[simp] theorem gapReset_ch_self : (gapReset c s).ch c = { s.ch c with parser := resetParser (s.ch c).parser } := by
  simp [gapReset]

/-- An outcome returns the channel to Idle or leaves its record (R142 to R145). -/
theorem onOutcome_ch_self (o : ParserOutcome) : (onOutcome c now o s).ch c =
    if o = .inProgress then s.ch c
    else { s.ch c with schedState := .idle, nextPollDeadline := now + (s.cfg c).pollInterval } := by
  cases o <;> simp [onOutcome]

@[simp] theorem onOutcome_parser (o : ParserOutcome) : ((onOutcome c now o s).ch c).parser = (s.ch c).parser := by
  rw [onOutcome_ch_self]
  split <;> rfl

@[simp] theorem ch_after_outBuf (m : Memory) : State.ch { s with outBuf := m } d = s.ch d := by cases d <;> rfl
@[simp] theorem cfg_after_outBuf (m : Memory) : State.cfg { s with outBuf := m } d = s.cfg d := by cases d <;> rfl

end Records

/-! ## An operation that names a channel acts on that channel alone (R43) -/

/-- SEND_COMMAND, but for the transmit buffer and the value it returns (R164). -/
theorem send_onChannel {c : Chan} {addr : Nat} {cmd : Byte} {payload : List Byte} {a : Option SendResult} {s t : State}
    (h : send c addr cmd payload a s = .ok t) : OnChannel c { s with txBuf := t.txBuf, returned := t.returned } t := by
  rcases send_cases h with ⟨r, -, -, rfl⟩ | ⟨x, -, -, rfl⟩
  · exact OnChannel_refl _ _
  · cases x <;>
      exact ⟨rfl, fun _ => rfl, fun _ _ => rfl, rfl, rfl, rfl, rfl, rfl, rfl, ⟨_, rfl, by simp⟩, ⟨[], by simp [commandSent]⟩,
        ⟨_, rfl, by simp⟩⟩

/-- SEND_COMMAND writes no runtime record (R44, D17). -/
theorem send_ch {c : Chan} {addr : Nat} {cmd : Byte} {payload : List Byte} {a : Option SendResult} {s t : State}
    (h : send c addr cmd payload a s = .ok t) (d : Chan) : t.ch d = s.ch d := by
  rcases send_cases h with ⟨r, -, -, rfl⟩ | ⟨x, -, -, rfl⟩
  · exact ret_ch ..
  · cases x <;> rfl

theorem setParser_onChannel (s : State) (c : Chan) (p : ParserState) : OnChannel c s (s.setParser c p) := by
  constructor <;> simp +contextual [State.setParser, setCh_ch_other]

/-- R43, but for the transmit buffer and the returned values, which belong to no channel. -/
theorem exec_onChannel {i : Instr} {c : Chan} {s t : State} (hc : chanOf i = some c) (h : exec i s = .next t) :
    OnChannel c { s with txBuf := t.txBuf, returned := t.returned } t := by
  have ofBoth : OnChannel c s t → OnChannel c { s with txBuf := t.txBuf, returned := t.returned } t := fun g => by
    rw [g.txBuf, g.returned]
    exact g
  cases exec_next h with
  | frame hf _ hrx =>
    cases (chanOf_frame hf).symm.trans hc
    exact ofBoth (rxBytes_onChannel hrx)
  | chTick _ htick => cases hc; exact ofBoth (tick_onChannel htick)
  | chRx _ hrx => cases hc; exact ofBoth (rxByte_onChannel hrx)
  | sendCommand _ hsend => cases hc; exact send_onChannel hsend
  | @parserConsume _ _ o p _ _ ht =>
    cases hc
    subst ht
    cases c <;> exact setParser_onChannel { s with returned := s.returned ++ [.parserConsume o] } _ p
  | parserReset _ ht => cases hc; subst ht; exact ofBoth (setParser_onChannel s c _)
  | initRejected | initOk | orchTick | buildFrame | checksum => cases hc

/-- What is appended on channel `c` is no part of another channel's stream. -/
theorem filter_append_other {α : Type} {f : α → Chan} {c d : Chan} {xs ys : List α} (hd : d ≠ c)
    (h : ∃ x, ys = xs ++ x ∧ ∀ r ∈ x, f r = c) : ys.filter (fun r => f r = d) = xs.filter (fun r => f r = d) := by
  obtain ⟨x, rfl, hx⟩ := h
  have hnone : x.filter (fun r => f r = d) = [] := List.filter_eq_nil_iff.2 fun r hr => by
    simpa [hx r hr] using hd.symm
  rw [List.filter_append, hnone, List.append_nil]

/-- Settles O54: an operation that names a channel acts on that channel alone. -/
theorem channelsAreDisjoint : Obligations.ChannelsAreDisjoint := by
  intro i s t c d hc hd h
  have g := exec_onChannel hc h
  exact ⟨g.cfg d, g.other d hd, filter_append_other hd g.sends, filter_append_other hd g.results, filter_append_other hd g.diags⟩

/-! ## The configuration (R26, R160, R181) -/

/-- INIT finds no fault in two configurations it finds no fault in one by one (R160). -/
theorem initFault_eq_none {k0 k1 : ChannelConfig} (h : initFault k0 k1 = none) :
    configFault k0 = none ∧ configFault k1 = none := by
  unfold initFault at h
  split at h
  · cases h
  · split at h
    · cases h
    · exact ⟨‹_›, ‹_›⟩

/-- Settles O39: INIT finds no fault, so it writes every field. -/
theorem initSetsEveryField : Obligations.InitSetsEveryField := by
  intro k0 k1 s hi ha0 hg0 ha1 hg1
  have h0 : configFault k0 = none := (configFault_eq_none_iff k0).2 ⟨ha0, hg0⟩
  have h1 : configFault k1 = none := (configFault_eq_none_iff k1).2 ⟨ha1, hg1⟩
  have hf : initFault k0 k1 = none := by rw [initFault, h0, h1]
  simp only [exec, execInit, hi, hf]
  rfl

/-- Settles O53: INIT, the one operation that writes the configuration, is refused, and the others keep it. -/
theorem configurationIsFixedAfterInit : Obligations.ConfigurationIsFixedAfterInit := by
  intro i s t hi h
  cases hc : chanOf i with
  | some c =>
    have g := exec_onChannel hc h
    exact ⟨g.initialized.trans hi, g.cfg⟩
  | none =>
    cases exec_next h with
    | frame hf => cases (chanOf_frame hf).symm.trans hc
    | initRejected hi' | initOk hi' => cases hi.symm.trans hi'
    | orchTick _ h0 h1 =>
      have g0 := tick_onChannel h0
      have g1 := tick_onChannel h1
      exact ⟨(g1.initialized.trans g0.initialized).trans hi, fun d => (g1.cfg d).trans (g0.cfg d)⟩
    | buildFrame ht => subst ht; exact ⟨hi, by simp⟩
    | checksum ht => subst ht; exact ⟨hi, by simp⟩
    | chTick | chRx | sendCommand | parserConsume | parserReset => cases hc

/-! ## The invariant (R30 to R35, R40, R50, R164) -/

/-- An operation on one channel keeps the invariant if it keeps that channel's parser good. -/
theorem inv_of_onChannel {c : Chan} {s t : State} (h : s.Inv) (g : OnChannel c s t) (hp : (t.ch c).parser.Inv s.capacity) : t.Inv where
  parser d := by
    rw [g.capacity]
    by_cases hd : d = c
    · exact hd ▸ hp
    · exact g.other d hd ▸ h.parser d
  outWf := g.outBuf ▸ h.outWf
  txWf := g.txBuf ▸ h.txWf
  txWithin := g.txBuf ▸ h.txWithin
  config hi d := g.cfg d ▸ h.config (g.initialized ▸ hi) d

/-- The invariant says nothing of the observation, the queue and the clock. -/
theorem inv_ret {s : State} (h : s.Inv) (v : Returned) : (s.ret v).Inv := ⟨h.parser, h.outWf, h.txWf, h.txWithin, h.config⟩

theorem inv_queue {s : State} (h : s.Inv) (script : List Byte) (clock : Nat) : State.Inv { s with script := script, clock := clock } :=
  ⟨h.parser, h.outWf, h.txWf, h.txWithin, h.config⟩

theorem inv_outBuf {s : State} (h : s.Inv) {m : Memory} (hm : m.wf = true) : State.Inv { s with outBuf := m } :=
  ⟨h.parser, hm, h.txWf, h.txWithin, h.config⟩

/-- A tick keeps its channel's parser or resets it (R132 to R137). -/
theorem tick_parser {c : Chan} {now : Nat} {a : Option SendResult} {s t : State} (h : tick c now a s = .ok t) :
    (t.ch c).parser = (s.ch c).parser ∨ (t.ch c).parser = resetParser (s.ch c).parser := by
  rcases tick_cases h with ⟨-, -, -, rfl⟩ | ⟨-, -, -, rfl⟩ | ⟨-, -, -, rfl⟩ | ⟨-, -, -, rfl⟩ | ⟨-, -, -, -, rfl⟩ | ⟨-, -, -, -, rfl⟩ <;>
    simp

theorem tick_inv {c : Chan} {now : Nat} {a : Option SendResult} {s t : State} (hs : s.Inv) (h : tick c now a s = .ok t) : t.Inv := by
  refine inv_of_onChannel hs (tick_onChannel h) ?_
  rcases tick_parser h with hp | hp <;> rw [hp]
  · exact hs.parser c
  · exact resetParser_inv (hs.parser c)

theorem rxByte_inv {c : Chan} {b : Byte} {now : Nat} {s t : State} (hs : s.Inv) (h : rxByte c b now s = .ok t) : t.Inv := by
  refine inv_of_onChannel hs (rxByte_onChannel h) ?_
  rcases rxByte_cases h with ⟨-, rfl⟩ | ⟨-, o, p, hc, rfl⟩
  · exact hs.parser c
  · simpa using consume_inv (hs.parser c) hc

theorem rxBytes_inv {c : Chan} {now : Nat} {bs : List Byte} {s t : State} (hs : s.Inv) (h : rxBytes c now bs s = .ok t) : t.Inv :=
  rxBytes_induct (P := fun s t => s.Inv → t.Inv) (fun _ => id) (fun _ _ _ h g => g ∘ h) (fun _ _ _ h hs => rxByte_inv hs h) bs h hs

theorem send_inv {c : Chan} {addr : Nat} {cmd : Byte} {payload : List Byte} {a : Option SendResult} {s t : State} (hs : s.Inv)
    (h : send c addr cmd payload a s = .ok t) : t.Inv := by
  rcases send_cases h with ⟨r, -, -, rfl⟩ | ⟨x, -, -, rfl⟩
  · exact inv_ret hs _
  · have hwf := buildInto_wf hs.txWf addr cmd payload Config.txBufSize
    have hin := buildInto_within hs.txWithin addr cmd payload
    cases x <;> exact ⟨hs.parser, hs.outWf, hwf, hin, hs.config⟩

theorem initial_inv (cap : Nat) : ParserState.initial.Inv cap :=
  ⟨rfl, nofun, Nat.zero_le _, Nat.zero_le _, rfl, fun h => absurd rfl h, nofun⟩

theorem initState_inv {k0 k1 : ChannelConfig} {s : State} (hs : s.Inv) (h : initFault k0 k1 = none) : (initState k0 k1 s).Inv where
  parser d := by cases d <;> exact initial_inv _
  outWf := hs.outWf
  txWf := hs.txWf
  txWithin := hs.txWithin
  config _ d := by
    obtain ⟨h0, h1⟩ := initFault_eq_none h
    cases d
    · exact h0
    · exact h1

/-- Every operation keeps the invariant. -/
theorem exec_inv {i : Instr} {s t : State} (hs : s.Inv) (h : exec i s = .next t) : t.Inv := by
  cases exec_next h with
  | frame _ _ hrx => exact rxBytes_inv hs hrx
  | initRejected _ _ ht => subst ht; exact inv_ret hs _
  | initOk _ hf ht => subst ht; exact inv_ret (initState_inv hs hf) _
  | orchTick _ h0 h1 => exact tick_inv (tick_inv hs h0) h1
  | chTick _ htick => exact tick_inv hs htick
  | chRx _ hrx => exact rxByte_inv hs hrx
  | sendCommand _ hsend => exact send_inv hs hsend
  | buildFrame ht => 
    subst ht
    exact inv_ret (inv_outBuf hs (buildInto_wf hs.outWf ..)) _
  | checksum ht => subst ht; exact inv_ret hs _
  | parserConsume _ hc ht =>
    subst ht
    exact inv_ret (inv_of_onChannel hs (setParser_onChannel s _ _) (by simpa using consume_inv (hs.parser _) hc)) _
  | parserReset _ ht =>
    subst ht
    exact inv_of_onChannel hs (setParser_onChannel s _ _) (by simpa using resetParser_inv (hs.parser _))

/-- Settles O49: a step performs an operation, and every operation keeps the invariant. -/
theorem everyStepKeepsTheInvariant : Obligations.EveryStepKeepsTheInvariant := by
  intro s t hs h
  obtain ⟨i, rest, now, -, -, hexec⟩ := step_next h
  exact exec_inv (inv_queue hs rest now) hexec

/-- Settles O50: both parsers are as INIT leaves them and every buffer is empty. -/
theorem resetMeetsTheInvariant : Obligations.ResetMeetsTheInvariant := by
  refine ⟨⟨fun c => ?_, rfl, rfl, nofun, nofun⟩, rfl, fun c => ?_⟩
  · cases c <;> exact initial_inv _
  · cases c <;> exact Nat.le_refl 0

end Sys2Proof.Machine
end

section
/-! Which runtime fields (O58) and which bytes (O59) each operation may write (R44, R45). -/
namespace Sys2Proof.Machine

open Sys2Proof.Spec

/-! ## Which runtime fields an operation writes (R44, R132 to R146; log entry 17) -/

/-- CH_TICK's two columns, from the record it leaves in each of its cases (R132 to R137). -/
theorem tick_writes {c : Chan} {now : Nat} {a : Option SendResult} {s t : State} (h : tick c now a s = .ok t) :
    TickWrites (s.ch c) (t.ch c) now a := by
  rcases tick_cases h with ⟨hst, hdue, rfl, rfl⟩ | ⟨hst, hdue, rfl, rfl⟩ | ⟨-, -, -, rfl⟩ | ⟨hst, hdue, -, rfl⟩ |
    ⟨hst, hdue, -, -, rfl⟩ | ⟨-, -, -, -, rfl⟩
  case inr.inr.inl | inr.inr.inr.inr.inr =>
    exact ⟨rfl, rfl, rfl, rfl, fun _ => rfl, fun _ _ => rfl, fun _ _ => rfl, fun _ _ => rfl⟩
  all_goals constructor <;> simp [resetParser, Due, hst, hdue]

theorem rxWrites_refl (x : ChannelRuntime) : RxWrites x x := ⟨fun _ => rfl, rfl, fun h => ⟨h, rfl⟩⟩

theorem rxWrites_trans {x y z : ChannelRuntime} (h : RxWrites x y) (g : RxWrites y z) : RxWrites x z where
  idle hx := by
    cases h.idle hx
    exact g.idle hx
  replyDeadline := g.replyDeadline.trans h.replyDeadline
  waiting hz := by
    obtain ⟨hy, hzy⟩ := g.waiting hz
    obtain ⟨hx, hyx⟩ := h.waiting hy
    exact ⟨hx, hzy.trans hyx⟩

/-- CH_RX's two columns: nothing in Idle, and no write of `next_poll_deadline` but with the return to Idle (R141 to R146). -/
theorem rxByte_writes {c : Chan} {b : Byte} {now : Nat} {s t : State} (h : rxByte c b now s = .ok t) :
    RxWrites (s.ch c) (t.ch c) := by
  rcases rxByte_cases h with ⟨-, rfl⟩ | ⟨hst, o, p, -, rfl⟩
  · exact rxWrites_refl _
  · rw [onOutcome_ch_self]
    split <;> constructor <;> simp [hst]

theorem rxBytes_writes {c : Chan} {now : Nat} {bs : List Byte} {s t : State} (h : rxBytes c now bs s = .ok t) :
    RxWrites (s.ch c) (t.ch c) :=
  rxBytes_induct (P := fun s t => RxWrites (s.ch c) (t.ch c)) (fun _ => rxWrites_refl _) (fun _ _ _ => rxWrites_trans)
    (fun _ _ _ => rxByte_writes) bs h

/-- ORCH_TICK leaves each channel what that channel's own tick leaves (R162). -/
theorem tickBoth_writes {now : Nat} {a0 a1 : Option SendResult} {s u t : State} (h0 : tick .ch0 now a0 s = .ok u)
    (h1 : tick .ch1 now a1 u = .ok t) : TickWrites s.ch0 t.ch0 now a0 ∧ TickWrites s.ch1 t.ch1 now a1 := by
  have hu : u.ch1 = s.ch1 := (tick_onChannel h0).other .ch1 nofun
  have ht : t.ch0 = u.ch0 := (tick_onChannel h1).other .ch0 nofun
  exact ⟨ht ▸ tick_writes h0, hu ▸ tick_writes h1⟩

/-- Settles O58: one lemma on the record an operation leaves for each clause, and O54's for the other channel. -/
theorem fieldsChangeOnlyByTheirWriters : Obligations.FieldsChangeOnlyByTheirWriters := by
  intro s t
  refine ⟨fun now a0 a1 h => ?_, fun c now a h => ⟨?_, (exec_onChannel rfl h).other⟩,
    fun c b now h => ⟨?_, (exec_onChannel rfl h).other⟩, fun cmd c now f h => ?_, fun c addr cmd payload a h => ?_,
    fun addr cmd payload outCap h d => ?_, fun bytes h d => ?_, fun c b h => ⟨?_, (exec_onChannel rfl h).other⟩,
    fun c h => ⟨?_, (exec_onChannel rfl h).other⟩⟩
  · obtain ⟨u, h0, h1⟩ := tickBoth_ok.1 (ofRefusal_next.1 (admitted_next h).2)
    exact tickBoth_writes h0 h1
  · exact tick_writes (ofRefusal_next.1 (admitted_next h).2)
  · exact rxByte_writes (ofFault_next.1 (admitted_next h).2)
  · have hf := frameOf_frameRow cmd c now f
    refine ⟨?_, (exec_onChannel (chanOf_frame hf) h).other⟩
    rw [exec_frame hf] at h
    exact rxBytes_writes (ofFault_next.1 (admitted_next h).2)
  · exact send_ch (ofRefusal_next.1 (admitted_next h).2)
  · cases h
    exact ret_ch ..
  · cases h
    exact ret_ch ..
  · cases exec_next h with
    | @parserConsume _ _ _ p _ _ ht => exact ⟨p, by simp [ht]⟩
    | frame hf => cases hf
  · cases (admitted_next h).2
    exact setParser_ch_self ..

/-! ## Which bytes an operation writes (R45, R50, R52, R110, R164; log entries 9 and 10) -/

theorem exec_keeps_outBuf {i : Instr} {s t : State} (h : exec i s = .next t)
    (hne : ∀ addr cmd payload outCap, i ≠ .buildFrame addr cmd payload outCap) : t.outBuf = s.outBuf := by
  cases hc : chanOf i with
  | some c => exact (exec_onChannel hc h).outBuf
  | none =>
    cases exec_next h with
    | frame hf => cases (chanOf_frame hf).symm.trans hc
    | orchTick _ h0 h1 => exact (tick_onChannel h1).outBuf.trans (tick_onChannel h0).outBuf
    | buildFrame => exact absurd rfl (hne _ _ _ _)
    | initRejected _ _ ht | initOk _ _ ht | checksum ht => subst ht; rfl
    | chTick | chRx | sendCommand | parserConsume | parserReset => cases hc

theorem exec_keeps_txBuf {i : Instr} {s t : State} (h : exec i s = .next t)
    (hne : ∀ c addr cmd payload a, i ≠ .sendCommand c addr cmd payload a) : t.txBuf = s.txBuf := by
  cases exec_next h with
  | frame _ _ hrx => exact (rxBytes_onChannel hrx).txBuf
  | orchTick _ h0 h1 => exact (tick_onChannel h1).txBuf.trans (tick_onChannel h0).txBuf
  | chTick _ htick => exact (tick_onChannel htick).txBuf
  | chRx _ hrx => exact (rxByte_onChannel hrx).txBuf
  | sendCommand => exact absurd rfl (hne _ _ _ _ _)
  | parserConsume _ _ ht | parserReset _ ht => subst ht; exact (setParser_onChannel s _ _).txBuf
  | initRejected _ _ ht | initOk _ _ ht | buildFrame ht | checksum ht => subst ht; rfl

/-- BUILD_FRAME leaves every byte from the frame's end on (R52). -/
theorem buildInto_read_above {out : Memory} (hw : out.wf = true) {addr : Nat} {cmd : Byte} {payload : List Byte} (outCap : Nat) {k : Nat}
    (hk : 5 + payload.length ≤ k) : (buildInto addr cmd payload outCap out).2.read k = out.read k := by
  rcases buildInto_cases addr cmd payload outCap out with ⟨r, -, h⟩ | ⟨-, h⟩ <;> rw [h]
  rw [read_writeBytes hw, frameBytes_length, if_neg (by omega)]

/-- SEND_COMMAND leaves every byte of the transmit buffer from the frame's end on (R164). -/
theorem send_txBuf_above {c : Chan} {addr : Nat} {cmd : Byte} {payload : List Byte} {a : Option SendResult} {s t : State}
    (hw : s.txBuf.wf = true) (h : send c addr cmd payload a s = .ok t) {k : Nat} (hk : 5 + payload.length ≤ k) :
    t.txBuf.read k = s.txBuf.read k := by
  rcases send_cases h with ⟨r, -, -, rfl⟩ | ⟨x, -, -, rfl⟩
  · rfl
  · cases x <;> exact buildInto_read_above hw _ hk

/-- A byte past a buffer's size reads 0x00, as every byte that does not exist (R50). -/
theorem read_of_within {m : Memory} {n k : Nat} (h : m.within n) (hk : n ≤ k) : m.read k = 0x00#8 := by
  induction m with
  | nil => rfl
  | cons x m ih =>
    have hx : x.1 < n := h x (by simp)
    rw [Memory.read, if_neg (by omega)]
    exact ih fun y hy => h y (by simp [hy])

/-- Only an operation that feeds a parser writes its buffer (R45, R110). -/
theorem exec_keeps_unfed_buf {i : Instr} {c : Chan} {s t : State} (hi : s.initialized = true) (h : exec i s = .next t)
    (hfed : fedBy i ≠ some c) : (t.ch c).parser.buf = (s.ch c).parser.buf := by
  by_cases hc : ∃ d, chanOf i = some d ∧ c ≠ d
  · obtain ⟨d, hd, hne⟩ := hc
    rw [(exec_onChannel hd h).other c hne]
    rfl
  · have own : ∀ {d}, chanOf i = some d → d = c := fun {d} hd => by
      by_contra hne
      exact hc ⟨d, hd, Ne.symm hne⟩
    cases exec_next h with
    | frame hf => exact absurd ((fedBy_frame hf).trans (congrArg some (own (chanOf_frame hf)))) hfed
    | chRx | parserConsume => exact absurd (congrArg some (own rfl)) hfed
    | initRejected hi' | initOk hi' => cases hi.symm.trans hi'
    | orchTick _ h0 h1 =>
      obtain ⟨w0, w1⟩ := tickBoth_writes h0 h1
      cases c
      · exact w0.buf
      · exact w1.buf
    | chTick _ htick => cases own rfl; exact (tick_writes htick).buf
    | sendCommand _ hsend => rw [send_ch hsend]
    | parserReset _ ht => cases own rfl; rw [ht, setParser_ch_self]; rfl
    | buildFrame ht | checksum ht => simp [ht]

@[simp] theorem advance_buf (st : PState) (b : Byte) (q : ParserState) : (advance st b q).buf = q.buf := by
  cases st <;> simp only [advance]
  split <;> rfl

@[simp] theorem advance_index (st : PState) (b : Byte) (q : ParserState) : (advance st b q).index = q.index := by
  cases st <;> simp only [advance]
  split <;> rfl

/-- PARSER_CONSUME writes no byte but the one at `index` (R110). -/
theorem consume_read {c : Chan} {cap : Nat} {p q : ParserState} {b : Byte} {o : ParserOutcome} (hw : p.buf.wf = true)
    (h : consume c cap p b = .ok (o, q)) {k : Nat} (hk : k ≠ p.index) : q.buf.read k = p.buf.read k := by
  rcases consume_cases h with ⟨-, -, -, rfl⟩ | ⟨-, -, -, rfl⟩ | ⟨-, -, -, rfl⟩ | ⟨-, -, -, rfl⟩ | ⟨-, -, -, rfl⟩
  · rfl
  · rw [advance_buf]
    exact (read_write hw ..).trans (if_neg hk)
  all_goals rfl

/-- A byte that gives InProgress is discarded or counted (R101 to R105). -/
theorem consume_inProgress_index {c : Chan} {cap : Nat} {p q : ParserState} {b : Byte} (h : consume c cap p b = .ok (.inProgress, q)) :
    q.index = p.index ∨ q.index = p.index + 1 := by
  rcases consume_cases h with ⟨-, -, -, rfl⟩ | ⟨-, -, -, rfl⟩ | ⟨-, -, ho, -⟩ | ⟨-, -, ho, -⟩ | ⟨-, -, ho, -⟩
  · exact .inl rfl
  · exact .inr (advance_index ..)
  all_goals cases ho

/-- CH_RX writes no byte of its parser's buffer but the one at `index` (R110, R141, R146). -/
theorem rxByte_read {c : Chan} {b : Byte} {now : Nat} {s t : State} (hw : (s.ch c).parser.buf.wf = true) (h : rxByte c b now s = .ok t)
    {k : Nat} (hk : k ≠ (s.ch c).parser.index) : (t.ch c).parser.buf.read k = (s.ch c).parser.buf.read k := by
  rcases rxByte_cases h with ⟨-, rfl⟩ | ⟨-, o, p, hc, rfl⟩
  · rfl
  · simpa using consume_read hw hc hk

/-- While the reply window stays open, CH_RX discards the byte or counts it (R142). -/
theorem rxByte_index {c : Chan} {b : Byte} {now : Nat} {s t : State} (h : rxByte c b now s = .ok t)
    (hopen : (t.ch c).schedState ≠ .idle) :
    (t.ch c).parser.index = (s.ch c).parser.index ∨ (t.ch c).parser.index = (s.ch c).parser.index + 1 := by
  rcases rxByte_cases h with ⟨-, rfl⟩ | ⟨-, o, p, hc, rfl⟩
  · exact .inl rfl
  · by_cases ho : o = .inProgress
    · subst ho
      simpa using consume_inProgress_index hc
    · exact absurd (by rw [onOutcome_ch_self, if_neg ho]) hopen

/-- Bytes that arrive in a row are written from `index` on, at as many offsets as there are bytes: the byte that ends the frame ends the
window, and those after it are discarded (R110, R142 to R146). -/
theorem rxBytes_read {c : Chan} {now : Nat} {bs : List Byte} {s t : State} (hs : s.Inv) (h : rxBytes c now bs s = .ok t) {k : Nat}
    (hk : k < (s.ch c).parser.index ∨ (s.ch c).parser.index + bs.length ≤ k) :
    (t.ch c).parser.buf.read k = (s.ch c).parser.buf.read k := by
  induction bs generalizing s with
  | nil => cases h; rfl
  | cons b bs ih =>
    cases hb : rxByte c b now s with
    | error e => simp [rxBytes, hb] at h
    | ok u =>
      simp only [rxBytes, hb] at h
      simp only [List.length_cons] at hk
      have hfirst := rxByte_read (hs.parser c).bufWf hb (k := k) (by omega)
      by_cases hu : (u.ch c).schedState = .idle
      · rw [rxBytes_idle hu] at h
        cases h
        exact hfirst
      · have hindex := rxByte_index hb hu
        exact (ih (rxByte_inv hs hb) h (by omega)).trans hfirst

/-- Settles O59: one lemma for each of the three kinds of buffer says what its writers write, and another that nothing else writes it. A
byte at or past CAPACITY reads 0x00 before and after. -/
theorem bytesChangeOnlyByTheirWriters : Obligations.BytesChangeOnlyByTheirWriters := by
  intro i s t hs hi h
  refine ⟨fun hne k => by rw [exec_keeps_outBuf h hne], ?_, fun hne k => by rw [exec_keeps_txBuf h hne], ?_, ?_, ?_, ?_⟩
  · rintro addr cmd payload outCap rfl k hk
    cases h
    exact buildInto_read_above hs.outWf outCap hk
  · rintro c addr cmd payload a rfl k hk
    exact send_txBuf_above hs.txWf (ofRefusal_next.1 (admitted_next h).2) hk
  · rintro c k (hfed | hk)
    · rw [exec_keeps_unfed_buf hi h hfed]
    · have hcap : t.capacity = s.capacity := (exec_keeps_capacity_script_clock h).1
      rw [read_of_within ((exec_inv hs h).parser c).bufWithin (hcap ▸ hk), read_of_within (hs.parser c).bufWithin hk]
  · rintro c b now (rfl | rfl) k hk
    · exact rxByte_read (hs.parser c).bufWf (ofFault_next.1 (admitted_next h).2) hk
    · cases exec_next h with
      | parserConsume _ hc ht => simpa [ht] using consume_read (hs.parser c).bufWf hc hk
      | frame hf => cases hf
  · rintro cmd c now f rfl k hk
    rw [exec_frame (frameOf_frameRow cmd c now f)] at h
    exact rxBytes_read hs (ofFault_next.1 (admitted_next h).2) (by rwa [wireBytes_length])

end Sys2Proof.Machine
end

section
/-! What an operation does to its channel depends on nothing of the other channel (O55; R64, R166). -/
namespace Sys2Proof.Machine

open Sys2Proof.Spec

/-! ## What no operation reads

Two states are linked on a set of channels when they agree on the configuration and the observation and their runtime records there are
related. Operations keep states linked when the relation is one that ticks and received bytes keep, as equality is (O55) and agreement on
all but the stale fields of R47 (O60). -/

/-- Two answers of one kind: related values, or the same stop. -/
inductive Alike {ε α : Type} (R : α → α → Prop) : Except ε α → Except ε α → Prop where
  | ok {x y : α} (h : R x y) : Alike R (.ok x) (.ok y)
  | error (e : ε) : Alike R (.error e) (.error e)

/-- Two outcomes of one kind: related next states, or the same stop. -/
inductive OutcomesAlike (R : State → State → Prop) :
    Host.Outcome State Fault Refusal → Host.Outcome State Fault Refusal → Prop where
  | next {s t : State} (h : R s t) : OutcomesAlike R (.next s) (.next t)
  | fault (f : Fault) : OutcomesAlike R (.fault f) (.fault f)
  | refused (r : Refusal) : OutcomesAlike R (.refused r) (.refused r)

section Outcomes
variable {R : State → State → Prop}

theorem ofRefusal_alike {x y : Except Refusal State} (h : Alike R x y) : OutcomesAlike R (ofRefusal x) (ofRefusal y) := by
  cases h with
  | ok h => exact .next h
  | error e => exact .refused e

theorem ofFault_alike {x y : Except Fault State} (h : Alike R x y) : OutcomesAlike R (ofFault x) (ofFault y) := by
  cases h with
  | ok h => exact .next h
  | error e => exact .fault e

theorem admitted_alike {s s' : State} (hi : s.initialized = s'.initialized) {x y : Host.Outcome State Fault Refusal}
    (h : OutcomesAlike R x y) : OutcomesAlike R (admitted s x) (admitted s' y) := by
  unfold admitted
  rw [← hi]
  split
  · exact h
  · exact .refused _

theorem outcomesAlike_next {x y : Host.Outcome State Fault Refusal} {t : State} (h : OutcomesAlike R x y) (hx : x = .next t) :
    ∃ t', y = .next t' ∧ R t t' := by
  cases h with
  | next h => cases hx; exact ⟨_, rfl, h⟩
  | fault | refused => cases hx

end Outcomes

/-- Related runtime records answer a tick and a received byte alike, and stay related in each case. -/
structure RecordBisim (cap : Nat) (P : ChannelRuntime → ChannelRuntime → Prop) : Prop where
  schedState {x y : ChannelRuntime} : P x y → x.schedState = y.schedState
  nextPollDeadline {x y : ChannelRuntime} : P x y → x.nextPollDeadline = y.nextPollDeadline
  replyDeadline {x y : ChannelRuntime} : P x y → x.schedState = .waitingReply → x.replyDeadline = y.replyDeadline
  gap {x y : ChannelRuntime} (k : ChannelConfig) (now : Nat) : P x y → x.schedState = .waitingReply →
    gapExceeded k x now = gapExceeded k y now
  /-- A poll that was sent opens the reply window with a reset parser (R132). -/
  opened {x y : ChannelRuntime} (deadline : Nat) : P x y →
    P { x with schedState := .waitingReply, replyDeadline := deadline, parser := resetParser x.parser }
      { y with schedState := .waitingReply, replyDeadline := deadline, parser := resetParser y.parser }
  /-- A poll that failed is put off (R133). -/
  putOff {x y : ChannelRuntime} (deadline : Nat) : P x y → P { x with nextPollDeadline := deadline } { y with nextPollDeadline := deadline }
  /-- The return to Idle (R135, R143 to R145). -/
  closed {x y : ChannelRuntime} (deadline : Nat) : P x y →
    P { x with schedState := .idle, nextPollDeadline := deadline } { y with schedState := .idle, nextPollDeadline := deadline }
  /-- A parser reset (R111, R136). -/
  reset {x y : ChannelRuntime} : P x y → P { x with parser := resetParser x.parser } { y with parser := resetParser y.parser }
  /-- A byte in an open window (R141). -/
  received {x y : ChannelRuntime} (c : Chan) (b : Byte) (now : Nat) : P x y → x.schedState = .waitingReply →
    Alike (fun r r' => r.1 = r'.1 ∧ P { x with lastRxTime := now, parser := r.2 } { y with lastRxTime := now, parser := r'.2 })
      (consume c cap x.parser b) (consume c cap y.parser b)

/-- Two states that agree on the configuration of the channels `D`, on the observation and on CAPACITY, with related runtime records on
`D`. -/
structure Linked (D : Chan → Prop) (P : ChannelRuntime → ChannelRuntime → Prop) (cap : Nat) (s s' : State) : Prop where
  initialized : s.initialized = s'.initialized
  capacity : s.capacity = cap
  capacity' : s'.capacity = cap
  cfg : ∀ d, D d → s.cfg d = s'.cfg d
  ch : ∀ d, D d → P (s.ch d) (s'.ch d)
  sends : s.sends = s'.sends
  results : s.results = s'.results
  diags : s.diags = s'.diags
  returned : s.returned = s'.returned

section Linked
variable {D : Chan → Prop} {P : ChannelRuntime → ChannelRuntime → Prop} {cap : Nat} {s s' : State} {c : Chan} {now : Nat}

/-! Writes of the two states that keep them linked -/

theorem linked_setCh (h : Linked D P cap s s') {r r' : ChannelRuntime} (hr : P r r') : Linked D P cap (s.setCh c r) (s'.setCh c r') := by
  constructor <;>
    simp only [setCh_initialized, setCh_capacity, setCh_cfg, setCh_ch, setCh_sends, setCh_results, setCh_diags, setCh_returned]
  case ch =>
    intro d hd
    split
    · exact hr
    · exact h.ch d hd
  exacts [h.initialized, h.capacity, h.capacity', h.cfg, h.sends, h.results, h.diags, h.returned]

theorem linked_emitResult (h : Linked D P cap s s') (f : Frame) : Linked D P cap (s.emitResult c f) (s'.emitResult c f) :=
  { h with results := congrArg (· ++ _) h.results }

theorem linked_emitDiag (h : Linked D P cap s s') (ev : DiagEvent) : Linked D P cap (s.emitDiag c ev) (s'.emitDiag c ev) :=
  { h with diags := congrArg (· ++ _) h.diags }

theorem linked_recordSend (h : Linked D P cap s s') (bytes : List Byte) (a : SendResult) :
    Linked D P cap (s.recordSend c bytes a) (s'.recordSend c bytes a) :=
  { h with sends := congrArg (· ++ _) h.sends }

theorem linked_ret (h : Linked D P cap s s') (v : Returned) : Linked D P cap (s.ret v) (s'.ret v) :=
  { h with returned := congrArg (· ++ _) h.returned }

theorem linked_outBuf (h : Linked D P cap s s') (m m' : Memory) : Linked D P cap { s with outBuf := m } { s' with outBuf := m' } :=
  { h with }

theorem linked_txBuf (h : Linked D P cap s s') (m m' : Memory) : Linked D P cap { s with txBuf := m } { s' with txBuf := m' } :=
  { h with }

theorem linked_setParser (h : Linked D P cap s s') {p p' : ParserState}
    (hp : P { s.ch c with parser := p } { s'.ch c with parser := p' }) : Linked D P cap (s.setParser c p) (s'.setParser c p') :=
  linked_setCh h hp

section Operations
variable (B : RecordBisim cap P) (h : Linked D P cap s s') (hc : D c)
include B h hc

theorem linked_toIdle : Linked D P cap (s.toIdle c now) (s'.toIdle c now) := by
  unfold State.toIdle
  rw [h.cfg c hc]
  exact linked_setCh h (B.closed _ (h.ch c hc))

theorem linked_reset : Linked D P cap (s.setParser c (resetParser (s.ch c).parser)) (s'.setParser c (resetParser (s'.ch c).parser)) :=
  linked_setParser h (B.reset (h.ch c hc))

theorem linked_pollSent : Linked D P cap (pollSent c now s) (pollSent c now s') := by
  simp only [pollSent, setCh_cfg, recordSend_cfg, h.cfg c hc]
  exact linked_emitDiag (linked_setCh (linked_recordSend h _ _) (B.opened _ (h.ch c hc))) _

theorem linked_pollFailed : Linked D P cap (pollFailed c now s) (pollFailed c now s') := by
  simp only [pollFailed, setCh_cfg, recordSend_cfg, h.cfg c hc]
  exact linked_emitDiag (linked_setCh (linked_recordSend h _ _) (B.putOff _ (h.ch c hc))) _

theorem linked_tickWaiting (hst : (s.ch c).schedState = .waitingReply) :
    Linked D P cap (tickWaiting c now s) (tickWaiting c now s') := by
  have hch := h.ch c hc
  have hreply : replyDue (s.ch c) now = replyDue (s'.ch c) now := by
    rw [replyDue, replyDue, B.replyDeadline hch hst]
  unfold tickWaiting
  rw [hreply, h.cfg c hc, B.gap _ _ hch hst]
  split_ifs
  · exact linked_toIdle B (linked_reset B (linked_emitDiag h _) hc) hc
  · exact linked_reset B h hc
  · exact h

/-- CH_TICK reads nothing but what linked states share (R131 to R137). -/
theorem tick_linked (a : Option SendResult) : Alike (Linked D P cap) (tick c now a s) (tick c now a s') := by
  have hch := h.ch c hc
  have hsends : Machine.tickSends (s'.ch c) now = Machine.tickSends (s.ch c) now := by
    simp only [Machine.tickSends, pollDue, B.schedState hch, B.nextPollDeadline hch]
  simp only [tick, hsends, ← B.schedState hch]
  split
  · rcases a with _ | _ | _
    · exact .error _
    · exact .ok (linked_pollSent B h hc)
    · exact .ok (linked_pollFailed B h hc)
  · cases a with
    | some r => exact .error _
    | none =>
      cases hst : (s.ch c).schedState with
      | idle => exact .ok h
      | waitingReply => exact .ok (linked_tickWaiting B h hc hst)

theorem linked_onOutcome (o : ParserOutcome) : Linked D P cap (onOutcome c now o s) (onOutcome c now o s') := by
  cases o with
  | inProgress => exact h
  | success f => exact linked_toIdle B (linked_emitDiag (linked_emitResult h f) _) hc
  | checksumError | bufferOverflow => exact linked_toIdle B (linked_emitDiag h _) hc

/-- CH_RX reads nothing but what linked states share (R140 to R146). -/
theorem rxByte_linked (b : Byte) : Alike (Linked D P cap) (rxByte c b now s) (rxByte c b now s') := by
  have hch := h.ch c hc
  simp only [rxByte, ← B.schedState hch, h.capacity, h.capacity']
  cases hst : (s.ch c).schedState with
  | idle => exact .ok h
  | waitingReply =>
    have hrx := B.received c b now hch hst
    generalize consume c cap (s.ch c).parser b = x at hrx ⊢
    generalize consume c cap (s'.ch c).parser b = y at hrx ⊢
    cases hrx with
    | error e => exact .error e
    | @ok r r' hr =>
      obtain ⟨o, p⟩ := r
      obtain ⟨o', p'⟩ := r'
      obtain ⟨ho, hp⟩ := hr
      cases ho
      refine .ok (linked_onOutcome B (linked_setCh h ?_) hc o)
      simpa [hst, B.schedState hch ▸ hst] using hp

theorem rxBytes_linked (bs : List Byte) : Alike (Linked D P cap) (rxBytes c now bs s) (rxBytes c now bs s') := by
  induction bs generalizing s s' with
  | nil => exact .ok h
  | cons b bs ih =>
    have hb := rxByte_linked B h hc (now := now) b
    unfold rxBytes
    generalize rxByte c b now s = x at hb ⊢
    generalize rxByte c b now s' = y at hb ⊢
    cases hb with
    | error e => exact .error e
    | ok hu => exact ih hu

omit B hc in
/-- SEND_COMMAND reads neither runtime records nor configuration (R164). -/
theorem send_linked (addr : Nat) (cmd : Byte) (payload : List Byte) (a : Option SendResult) :
    Alike (Linked D P cap) (send c addr cmd payload a s) (send c addr cmd payload a s') := by
  unfold send
  cases validate addr payload.length Config.txBufSize with
  | some r =>
    cases a with
    | none => exact .ok (linked_ret h _)
    | some x => exact .error _
  | none =>
    rcases a with _ | _ | _
    · exact .error _
    all_goals exact .ok (linked_ret (linked_emitDiag (linked_recordSend (linked_txBuf h _ _) _ _) _) _)

/-- An operation that names a channel of `D`, PARSER_CONSUME apart, keeps states linked. -/
theorem exec_linked {i : Instr} (hi : chanOf i = some c) (hne : ∀ c b, i ≠ .parserConsume c b) :
    OutcomesAlike (Linked D P cap) (exec i s) (exec i s') := by
  cases i using rowCases with
  | frame hf =>
    cases (chanOf_frame hf).symm.trans hi
    rw [exec_frame hf, exec_frame hf]
    exact admitted_alike h.initialized (ofFault_alike (rxBytes_linked B h hc _))
  | chTick => cases hi; exact admitted_alike h.initialized (ofRefusal_alike (tick_linked B h hc _))
  | chRx => cases hi; exact admitted_alike h.initialized (ofFault_alike (rxByte_linked B h hc _))
  | sendCommand => cases hi; exact admitted_alike h.initialized (ofRefusal_alike (send_linked h _ _ _ _))
  | parserConsume => exact absurd rfl (hne _ _)
  | parserReset => cases hi; exact admitted_alike h.initialized (.next (linked_reset B h hc))
  | init | orchTick | buildFrame | checksum => cases hi

end Operations

end Linked

/-! ## The other channel -/

/-- Equal runtime records answer alike. -/
theorem recordBisim_eq (cap : Nat) : RecordBisim cap Eq where
  schedState h := h ▸ rfl
  nextPollDeadline h := h ▸ rfl
  replyDeadline h _ := h ▸ rfl
  gap _ _ h _ := h ▸ rfl
  opened _ h := h ▸ rfl
  putOff _ h := h ▸ rfl
  closed _ h := h ▸ rfl
  reset h := h ▸ rfl
  received {x y} c b now h _ := by
    subst h
    cases consume c cap x.parser b with
    | error e => exact .error e
    | ok r => exact .ok ⟨rfl, rfl⟩

/-- PARSER_CONSUME keeps states with one runtime record linked (R100). -/
theorem parserConsume_linked {D : Chan → Prop} {cap : Nat} {s s' : State} {c : Chan} (h : Linked D Eq cap s s') (hc : D c) (b : Byte) :
    OutcomesAlike (Linked D Eq cap) (exec (.parserConsume c b) s) (exec (.parserConsume c b) s') := by
  refine admitted_alike h.initialized ?_
  rw [h.capacity, h.capacity', ← h.ch c hc]
  cases consume c cap (s.ch c).parser b with
  | error e => exact .fault e
  | ok r => exact .next (linked_ret (linked_setParser h (by rw [h.ch c hc])) _)

/-- What has been observed in a state. -/
def State.observation (s : State) : Observation := ⟨s.sends, s.results, s.diags, s.returned⟩

/-- An operation does what it does with nothing observed, after what has been observed (R15). -/
theorem exec_unobserved (i : Instr) (s : State) : exec i s = mapNext (·.observedAfter s.observation) (exec i s.unobserved) := by
  rw [← exec_observedAfter, unobserved_observedAfter]
  rfl

/-- Settles O55: with nothing observed before, states that agree on a channel are linked on it, and stay linked. -/
theorem channelBehaviourIgnoresTheOtherChannel : Obligations.ChannelBehaviourIgnoresTheOtherChannel := by
  intro i s s' c hc hi hcap hcfg hch
  have hlink : Linked (· = c) Eq s.capacity s.unobserved s'.unobserved :=
    ⟨hi, rfl, hcap.symm, fun d hd => hd ▸ hcfg, fun d hd => hd ▸ hch, rfl, rfl, rfl, rfl⟩
  have h : OutcomesAlike (Linked (· = c) Eq s.capacity) (exec i s.unobserved) (exec i s'.unobserved) := by
    by_cases hp : ∃ d b, i = .parserConsume d b
    · obtain ⟨d, b, rfl⟩ := hp
      cases hc
      exact parserConsume_linked hlink rfl b
    · exact exec_linked (recordBisim_eq _) hlink rfl hc fun d b he => hp ⟨d, b, he⟩
  rw [exec_unobserved i s, exec_unobserved i s']
  generalize exec i s.unobserved = x at h ⊢
  generalize exec i s'.unobserved = x' at h ⊢
  cases h with
  | @next t t' ht =>
    refine ⟨fun u hu => ?_, nofun, nofun⟩
    cases hu
    have hch' : (t.observedAfter s.observation).ch c = (t'.observedAfter s'.observation).ch c := by
      simpa using ht.ch c rfl
    have hcfg' : (t.observedAfter s.observation).cfg c = (t'.observedAfter s'.observation).cfg c := by
      simpa using ht.cfg c rfl
    exact ⟨_, rfl, hch', hcfg', t.sends, t.results, t.diags, t.returned,
      rfl, congrArg (s'.sends ++ ·) ht.sends.symm, rfl, congrArg (s'.results ++ ·) ht.results.symm,
      rfl, congrArg (s'.diags ++ ·) ht.diags.symm, rfl, congrArg (s'.returned ++ ·) ht.returned.symm⟩
  | fault f => simp [mapNext]
  | refused r => simp [mapNext]

end Sys2Proof.Machine
end

section
/-! The fields R47 names are never read before they are written (O60). -/
namespace Sys2Proof.Machine

open Sys2Proof.Spec

/-! ## The stale fields (R38, R39, R47) -/

/-- Agreement on what R47 says can be read before it is written, of records with good parsers. -/
structure LiveAgrees (cap : Nat) (x y : ChannelRuntime) : Prop where
  agrees : RuntimeAgrees x y
  left : x.parser.Inv cap
  right : y.parser.Inv cap

section Parsers
variable {p q : ParserState}

/-- After a reset nothing of the parser can be read before it is written (R111). -/
theorem resetParser_agrees (p q : ParserState) : ParserAgrees (resetParser p) (resetParser q) :=
  ⟨rfl, rfl, fun _ hk => absurd hk (Nat.not_lt_zero _), nofun⟩

/-- Parsers that agree hold the same bytes at the offsets below `index`. -/
theorem readBytes_agrees (h : ParserAgrees p q) {i n : Nat} (hle : i + n ≤ p.index) : p.buf.readBytes i n = q.buf.readBytes i n := by
  induction n generalizing i with
  | zero => rfl
  | succ n ih => rw [Memory.readBytes, Memory.readBytes, h.buffered i (by omega), ih (by omega)]

/-- A byte pushed onto parsers that agree: they go on alike, for `cmd` and `expected_len` are read only once they are recorded (R104,
R105). -/
theorem pushed_agrees (h : ParserAgrees p q) (hp : p.buf.wf = true) (hq : q.buf.wf = true) (b : Byte) :
    ParserAgrees (advance p.pstate b (pushed p b)) (advance q.pstate b (pushed q b)) := by
  have hidx : p.index = q.index := h.index
  have hbuf : ∀ k, k < p.index + 1 → (p.buf.write p.index b).read k = (q.buf.write q.index b).read k := fun k hk => by
    rw [read_write hp, read_write hq, ← hidx]
    split
    · rfl
    · exact h.buffered k (by omega)
  rw [← h.pstate]
  have hctl : (advance p.pstate b (pushed p b)).pstate = (advance p.pstate b (pushed q b)).pstate ∧
      ((advance p.pstate b (pushed p b)).pastCmd →
        (advance p.pstate b (pushed p b)).cmd = (advance p.pstate b (pushed q b)).cmd ∧
        (advance p.pstate b (pushed p b)).expectedLen = (advance p.pstate b (pushed q b)).expectedLen) := by
    cases hst : p.pstate with
    | waitSyn | waitAddrHi | waitAddrLo => exact ⟨rfl, nofun⟩
    | waitCmd => exact ⟨rfl, fun _ => ⟨rfl, rfl⟩⟩
    | waitData =>
      obtain ⟨hcmd, hlen⟩ := h.recorded (.inl hst)
      by_cases hlast : q.index + 1 = 4 + q.expectedLen <;> simp [advance, pushed, h.pstate, hidx, hcmd, hlen, hlast]
    | waitChecksum => exact ⟨h.pstate, fun _ => h.recorded (.inr hst)⟩
  exact ⟨hctl.1, by simpa [pushed] using hidx, by simpa [pushed] using hbuf, hctl.2⟩

/-- Parsers that agree compare the checksum byte with the same bytes and deliver the same frame (R106, R107). -/
theorem consume_checksum_agrees {c : Chan} {cap : Nat} {b : Byte} (h : ParserAgrees p q) (hp : p.Inv cap)
    (hst : p.pstate = .waitChecksum) :
    ∃ o, consume c cap p b = .ok (o, resetParser p) ∧ consume c cap q b = .ok (o, resetParser q) := by
  have hfit : p.index = 4 + p.expectedLen := by simpa [ParserState.indexFits, hst] using hp.indexFits
  have hcap := hp.indexCap
  have hidx : p.index = q.index := h.index
  have hq := consume_checksum (c := c) (b := b) (h.pstate ▸ hst) (by omega : 2 < cap) (by omega : q.index ≤ cap)
  rw [← hidx, ← readBytes_agrees h (by omega), ← readBytes_agrees h (by omega), ← h.buffered 2 (by omega),
    ← (h.recorded (.inr hst)).1] at hq
  exact ⟨_, consume_checksum hst (by omega) hcap, hq⟩

/-- Parsers that agree answer a byte alike and still agree (R47, R100). -/
theorem consume_agrees {c : Chan} {cap : Nat} {b : Byte} {o : ParserOutcome} {p' : ParserState} (h : ParserAgrees p q) (hp : p.Inv cap)
    (hq : q.Inv cap) (hc : consume c cap p b = .ok (o, p')) : ∃ q', consume c cap q b = .ok (o, q') ∧ ParserAgrees p' q' := by
  have hbuffers : buffers p b → buffers q b := fun hb => by
    simpa only [buffers, h.pstate] using hb
  have hidx : p.index = q.index := h.index
  have checksum : p.pstate = .waitChecksum → ∃ q', consume c cap q b = .ok (o, q') ∧ ParserAgrees p' q' := fun hst => by
    obtain ⟨o', hp', hq'⟩ := consume_checksum_agrees (c := c) (b := b) h hp hst
    cases hc.symm.trans hp'
    exact ⟨_, hq', resetParser_agrees p q⟩
  rcases consume_cases hc with ⟨hst, hb, rfl, rfl⟩ | ⟨hb, hi, rfl, rfl⟩ | ⟨hb, hi, rfl, rfl⟩ | ⟨hst, -⟩ | ⟨hst, -⟩
  · exact ⟨q, consume_noise (h.pstate ▸ hst) hb, h⟩
  · exact ⟨_, consume_push (hbuffers hb) (hidx ▸ hi), pushed_agrees h hp.bufWf hq.bufWf b⟩
  · exact ⟨_, consume_overflow (hbuffers hb) (hidx ▸ hi), resetParser_agrees p q⟩
  · exact checksum hst
  · exact checksum hst

end Parsers

/-- The gap test reads `last_rx_time` only with a byte buffered (R39, R136). -/
theorem gapExceeded_agrees {x y : ChannelRuntime} (h : RuntimeAgrees x y) (hst : x.schedState = .waitingReply) (k : ChannelConfig)
    (now : Nat) : gapExceeded k x now = gapExceeded k y now := by
  unfold gapExceeded
  rw [← h.parser.index]
  by_cases hi : 1 ≤ x.parser.index
  · rw [h.lastRxTime hst hi]
  · simp [hi]

/-- Records that agree on all but their stale fields answer alike (R38, R39, R47). -/
theorem recordBisim_liveAgrees (cap : Nat) : RecordBisim cap (LiveAgrees cap) where
  schedState h := h.agrees.schedState
  nextPollDeadline h := h.agrees.nextPollDeadline
  replyDeadline h := h.agrees.replyDeadline
  gap k now h hst := gapExceeded_agrees h.agrees hst k now
  opened {x y} deadline h :=
    ⟨⟨rfl, h.agrees.nextPollDeadline, fun _ => rfl, fun _ hi => absurd hi (Nat.not_succ_le_zero 0), resetParser_agrees ..⟩,
      resetParser_inv h.left, resetParser_inv h.right⟩
  putOff {x y} deadline h :=
    ⟨⟨h.agrees.schedState, rfl, h.agrees.replyDeadline, h.agrees.lastRxTime, h.agrees.parser⟩, h.left, h.right⟩
  closed {x y} deadline h := ⟨⟨rfl, rfl, nofun, nofun, h.agrees.parser⟩, h.left, h.right⟩
  reset {x y} h :=
    ⟨⟨h.agrees.schedState, h.agrees.nextPollDeadline, h.agrees.replyDeadline, fun _ hi => absurd hi (Nat.not_succ_le_zero 0),
      resetParser_agrees ..⟩, resetParser_inv h.left, resetParser_inv h.right⟩
  received {x y} c b now h hst := by
    obtain ⟨o, p, hx⟩ := consume_ok (c := c) (b := b) h.left
    obtain ⟨q, hy, hpq⟩ := consume_agrees h.agrees.parser h.left h.right hx
    rw [hx, hy]
    exact .ok ⟨rfl, ⟨h.agrees.schedState, h.agrees.nextPollDeadline, h.agrees.replyDeadline, fun _ _ => rfl, hpq⟩,
      consume_inv h.left hx, consume_inv h.right hy⟩

/-- Good states that agree on all but their stale fields are linked on both channels. -/
theorem linked_of_agrees {s s' : State} (h : Agrees s s') (hs : s.Inv) (hs' : s'.Inv) :
    Linked (fun _ => True) (LiveAgrees s.capacity) s.capacity s s' where
  initialized := h.initialized
  capacity := rfl
  capacity' := h.capacity.symm
  cfg d _ := h.cfg d
  ch d _ := ⟨h.ch d, hs.parser d, h.capacity ▸ hs'.parser d⟩
  sends := h.sends
  results := h.results
  diags := h.diags
  returned := h.returned

theorem agrees_of_linked {s s' : State} {cap : Nat} (h : Linked (fun _ => True) (LiveAgrees cap) cap s s')
    (hout : s.outBuf = s'.outBuf) : Agrees s s' where
  initialized := h.initialized
  cfg d := h.cfg d trivial
  ch d := (h.ch d trivial).agrees
  capacity := h.capacity.trans h.capacity'.symm
  outBuf := hout
  sends := h.sends
  results := h.results
  diags := h.diags
  returned := h.returned

section BothChannels
variable {P : ChannelRuntime → ChannelRuntime → Prop} {cap : Nat} {s s' : State} (h : Linked (fun _ => True) P cap s s')
include h

/-- ORCH_TICK reads nothing but what states linked on both channels share (R162). -/
theorem tickBoth_linked (B : RecordBisim cap P) (now : Nat) (a0 a1 : Option SendResult) :
    Alike (Linked (fun _ => True) P cap) (tickBoth now a0 a1 s) (tickBoth now a0 a1 s') := by
  have h0 := tick_linked B h (c := .ch0) trivial (now := now) a0
  unfold tickBoth
  generalize tick .ch0 now a0 s = x at h0 ⊢
  generalize tick .ch0 now a0 s' = y at h0 ⊢
  cases h0 with
  | error r => exact .error r
  | ok hu => exact tick_linked B hu trivial a1

theorem linked_initState (hinit : P ChannelRuntime.initial ChannelRuntime.initial) (k0 k1 : ChannelConfig) :
    Linked (fun _ => True) P cap (initState k0 k1 s) (initState k0 k1 s') :=
  { h with
    initialized := rfl
    cfg := fun d _ => by cases d <;> rfl
    ch := fun d _ => by cases d <;> exact hinit }

/-- INIT reads `initialized` alone, and writes every runtime field (R46, R160). -/
theorem execInit_linked (hinit : P ChannelRuntime.initial ChannelRuntime.initial) (k0 k1 : ChannelConfig) :
    OutcomesAlike (Linked (fun _ => True) P cap) (execInit k0 k1 s) (execInit k0 k1 s') := by
  unfold execInit
  rw [← h.initialized]
  split
  · exact .refused _
  · split
    · exact .next (linked_ret h _)
    · exact .next (linked_ret (linked_initState h hinit k0 k1) _)

end BothChannels

/-- From good states that agree on all but their stale fields every operation but PARSER_CONSUME stops alike or leads to linked states. -/
theorem exec_linked_both {s s' : State} (h : Agrees s s') (hs : s.Inv) (hs' : s'.Inv) {i : Instr} (hne : ∀ c b, i ≠ .parserConsume c b) :
    OutcomesAlike (Linked (fun _ => True) (LiveAgrees s.capacity) s.capacity) (exec i s) (exec i s') := by
  have hlink := linked_of_agrees h hs hs'
  have B := recordBisim_liveAgrees s.capacity
  cases hc : chanOf i with
  | some c => exact exec_linked B hlink trivial hc hne
  | none =>
    cases i using rowCases with
    | frame hf => cases (chanOf_frame hf).symm.trans hc
    | init => exact execInit_linked hlink ⟨⟨rfl, rfl, nofun, nofun, resetParser_agrees .initial .initial⟩, initial_inv _, initial_inv _⟩ _ _
    | orchTick => exact admitted_alike h.initialized (ofRefusal_alike (tickBoth_linked hlink B _ _ _))
    | buildFrame addr cmd payload outCap =>
      simp only [exec, execBuildFrame, h.outBuf]
      exact .next (linked_ret (linked_outBuf hlink _ _) _)
    | checksum => exact .next (linked_ret hlink _)
    | chTick | chRx | sendCommand | parserConsume | parserReset => cases hc

/-- BUILD_FRAME writes the same bytes over the same bytes, and no other operation writes the caller's buffer (R45, R52). -/
theorem exec_outBuf_eq {i : Instr} {s s' t t' : State} (hout : s.outBuf = s'.outBuf) (h : exec i s = .next t)
    (h' : exec i s' = .next t') : t.outBuf = t'.outBuf := by
  by_cases hb : ∃ addr cmd payload outCap, i = .buildFrame addr cmd payload outCap
  · obtain ⟨addr, cmd, payload, outCap, rfl⟩ := hb
    cases h
    cases h'
    simp [hout]
  · have hne : ∀ addr cmd payload outCap, i ≠ .buildFrame addr cmd payload outCap := fun _ _ _ _ he => hb ⟨_, _, _, _, he⟩
    rw [exec_keeps_outBuf h hne, hout, exec_keeps_outBuf h' hne]

/-- Settles O60: agreement on all but the stale fields of R47 is a link on both channels that every operation keeps. -/
theorem staleFieldsAreUnobservable : Obligations.StaleFieldsAreUnobservable := by
  intro i s s' t hne h hs hs' hexec
  obtain ⟨t', hexec', hlink⟩ := outcomesAlike_next (exec_linked_both h hs hs' hne) hexec
  exact ⟨t', hexec', agrees_of_linked hlink (exec_outBuf_eq h.outBuf hexec hexec')⟩

end Sys2Proof.Machine
end

section
/-! The bytes of an operation (O2 to O5): decode reads back every well-formed operation from its bytes, and what decode accepts is well
formed and stands at the front of the bytes. The operand readers are each described once, by what they read (`Reads`). -/

namespace Sys2Proof

open Machine

/-! ## Frame rows -/

/-- A frame row is written as its command byte, escaped if need be, and the rest of its frame (log entries 4 and 6). -/
theorem encode_frame {i : Instr} {cmd : Byte} {c : Chan} {now : Nat} {f : WireFrame} (h : frameOf i = some (cmd, c, now, f)) :
    encode i = otherHead cmd ++ frameRest c now f := by
  cases i <;> simp only [frameOf, reduceCtorEq, Option.some.injEq, Prod.mk.injEq] at h <;> obtain ⟨rfl, rfl, rfl, rfl⟩ := h <;> rfl

/-- A byte at or above the escape's bound is a command byte (log entry 6). -/
theorem decode_command {b : Byte} (h : escapeBound ≤ b.toNat) (bs : List Byte) : decode (b :: bs) = decodeFrame b bs := by
  have ne : ∀ t : Byte, t.toNat < escapeBound → b ≠ t := fun t ht hb => by
    rw [hb] at h
    omega
  rw [decode]
  iterate 10 rw [if_neg (ne _ (by decide))]

/-- A command byte, escaped if need be, is read as itself (log entry 6). -/
theorem decode_otherHead (cmd : Byte) (bs : List Byte) : decode (otherHead cmd ++ bs) = decodeFrame cmd bs := by
  by_cases h : cmd.toNat < escapeBound
  · rw [otherHead, if_pos h]
    show decodeEscaped (cmd :: bs) = _
    simp [decodeEscaped, readThen, h]
  · rw [otherHead, if_neg h]
    exact decode_command (Nat.le_of_not_lt h) bs

/-- The row a command byte selects receives frames with that command byte (R76, R77). -/
theorem frameOf_frameInstr (cmd : Byte) (x : Chan × Nat × WireFrame) : frameOf (frameInstr cmd x) = some (cmd, x) := by
  unfold frameInstr
  repeat' split
  all_goals simp [frameOf, *]

/-- CMD_OTHER is the row of exactly the command bytes that have no row of their own (R77). -/
theorem frameInstr_eq_cmdOther_iff (cmd : Byte) (c : Chan) (now : Nat) (f : WireFrame) :
    frameInstr cmd (c, now, f) = .cmdOther c now cmd f ↔ listedCmd cmd = false := by
  simp [frameInstr, listedCmd, ite_eq_iff, and_assoc]

/-- A frame row is well formed when its payload has the length its command byte selects and it is that byte's row (R76, R77, R79). -/
theorem wellFormed_frame {i : Instr} {cmd : Byte} {c : Chan} {now : Nat} {f : WireFrame} (h : frameOf i = some (cmd, c, now, f)) :
    i.WellFormed ↔ f.payload.length = lenOf cmd ∧ frameInstr cmd (c, now, f) = i := by
  cases i <;> simp only [frameOf, reduceCtorEq, Option.some.injEq, Prod.mk.injEq] at h <;> obtain ⟨rfl, rfl, rfl, rfl⟩ := h
  case cmdOther =>
    simp [Instr.WellFormed, Instr.wellFormed, WireFrame.fits, frameInstr_eq_cmdOther_iff, and_comm]
  all_goals exact beq_iff_eq.trans (iff_self_and.2 fun _ => rfl)

/-! ## Decode reads back what encode writes -/

/-- Every operand's reader reads back what its writer wrote, so each operation's reader does (R82). -/
theorem decode_encode {i : Instr} (h : i.WellFormed) (rest : List Byte) : decode (encode i ++ rest) = .ok (i, rest) := by
  induction i using rowCases with
  | @frame i cmd c now f hf =>
    obtain ⟨hlen, hrow⟩ := (wellFormed_frame hf).1 h
    rw [encode_frame hf, List.append_assoc, decode_otherHead]
    simp [decodeFrame, readThen, readDone, getFrame_frameRest cmd c now f hlen, hrow]
  | init k0 k1 =>
    show decodeInit (configBytes k0 ++ configBytes k1 ++ rest) = _
    simp [decodeInit, readThen, readDone, List.append_assoc]
  | orchTick now a0 a1 =>
    show decodeOrchTick (natBytes now ++ [answerByte a0, answerByte a1] ++ rest) = _
    simp [decodeOrchTick, readThen, readDone]
  | chTick c now a =>
    show decodeChTick (chanByte c :: (natBytes now ++ [answerByte a] ++ rest)) = _
    simp [decodeChTick, readThen, readDone]
  | chRx c b now =>
    show decodeChRx (chanByte c :: b :: (natBytes now ++ rest)) = _
    simp [decodeChRx, readThen, readDone]
  | sendCommand c addr cmd payload a =>
    show decodeSendCommand (chanByte c :: (natBytes addr ++ [cmd] ++ listBytes payload ++ [answerByte a] ++ rest)) = _
    simp [decodeSendCommand, readThen, readDone]
  | buildFrame addr cmd payload outCap =>
    show decodeBuildFrame (natBytes addr ++ [cmd] ++ listBytes payload ++ natBytes outCap ++ rest) = _
    simp [decodeBuildFrame, readThen, readDone]
  | checksum xs =>
    show decodeChecksum (listBytes xs ++ rest) = _
    simp [decodeChecksum, readThen, readDone]
  | parserConsume c b =>
    show decodeParserConsume (chanByte c :: b :: rest) = _
    simp [decodeParserConsume, readThen, readDone]
  | parserReset c =>
    show decodeParserReset (chanByte c :: rest) = _
    simp [decodeParserReset, readThen, readDone]

/-- Settles O2: by cases over the rows, the eight frame rows as one. -/
theorem encodedOperationsDecode : Obligations.EncodedOperationsDecode := fun _ h rest => decode_encode h rest

/-! ## What the readers accept -/

/-- Whatever `r` reads meets `P`, and stood at the front of the bytes. -/
def Reads {α : Type} (r : Reader α) (P : α → Prop) : Prop := ∀ ⦃bs x rest⦄, r bs = .ok (x, rest) → P x ∧ rest <:+ bs

section Readers
variable {α β : Type} {P : α → Prop} {Q : β → Prop}

theorem reads_readThen {r : Reader α} {go : α → Reader β} (h : Reads r P) (hgo : ∀ x, P x → Reads (go x) Q) :
    Reads (readThen r go) Q := by
  intro bs y rest hr
  unfold readThen at hr
  split at hr
  · cases hr
  · next x mid hx =>
    obtain ⟨hP, hmid⟩ := h hx
    obtain ⟨hQ, hrest⟩ := hgo x hP hr
    exact ⟨hQ, hrest.trans hmid⟩

theorem reads_readDone {x : α} (h : P x) : Reads (readDone x) P := by
  intro bs y rest hr
  cases hr
  exact ⟨h, List.suffix_rfl⟩

theorem reads_readError (e : DecodeError) : Reads (readError e) P := fun _ _ _ hr => by cases hr

/-- A reader that refuses to read nothing, and reads what it reads after a first byte. -/
theorem reads_of_cons {r : Reader α} {e : DecodeError} (hnil : r [] = .error e) (hcons : ∀ b, Reads (fun bs => r (b :: bs)) P) :
    Reads r P := by
  intro bs x rest h
  cases bs with
  | nil =>
    rw [hnil] at h
    cases h
  | cons b bs =>
    obtain ⟨hP, hrest⟩ := hcons b h
    exact ⟨hP, hrest.trans (List.suffix_cons b bs)⟩

end Readers

theorem reads_getByte : Reads getByte fun _ => True := reads_of_cons rfl fun _ => reads_readDone trivial

theorem reads_getBytes (n : Nat) : Reads (getBytes n) (·.length = n) := by
  induction n with
  | zero =>
    intro bs xs rest h
    cases h
    exact ⟨rfl, List.suffix_rfl⟩
  | succ n ih =>
    refine reads_of_cons rfl fun b bs xs rest h => ?_
    simp only [getBytes] at h
    split at h <;> cases h
    next ys hy =>
      obtain ⟨hlen, hrest⟩ := ih hy
      exact ⟨congrArg (· + 1) hlen, hrest⟩

theorem reads_getNat : Reads getNat fun _ => True := by
  intro bs
  induction bs with
  | nil => intro n rest h; cases h
  | cons b bs ih =>
    intro n rest h
    simp only [getNat] at h
    split at h
    · cases h
      exact ⟨trivial, List.suffix_cons ..⟩
    · split at h <;> cases h
      next m hm => exact ⟨trivial, (ih hm).2.trans (List.suffix_cons ..)⟩

theorem reads_getChan : Reads getChan fun _ => True :=
  reads_of_cons rfl fun b bs c rest h => by
    simp only [getChan] at h
    repeat' split at h
    all_goals cases h
    all_goals exact ⟨trivial, List.suffix_rfl⟩

theorem reads_getAnswer : Reads getAnswer fun _ => True :=
  reads_of_cons rfl fun b bs a rest h => by
    simp only [getAnswer] at h
    repeat' split at h
    all_goals cases h
    all_goals exact ⟨trivial, List.suffix_rfl⟩

theorem reads_getList : Reads getList fun _ => True :=
  reads_readThen reads_getNat fun n _ _ _ _ h => ⟨trivial, (reads_getBytes n h).2⟩

theorem reads_getGap : Reads getGap fun _ => True :=
  reads_of_cons rfl fun b bs g rest h => by
    simp only [getGap] at h
    split at h
    · cases h
      exact ⟨trivial, List.suffix_rfl⟩
    split at h
    · split at h <;> cases h
      next n hn => exact ⟨trivial, (reads_getNat hn).2⟩
    · cases h

theorem reads_getConfig : Reads getConfig fun _ => True :=
  reads_readThen reads_getByte fun _ _ => reads_readThen reads_getByte fun _ _ => reads_readThen reads_getNat fun _ _ =>
  reads_readThen reads_getNat fun _ _ => reads_readThen reads_getGap fun _ _ => reads_readThen reads_getNat fun _ _ =>
  reads_readDone trivial

/-- A frame is read with the payload length its command byte selects (R79). -/
theorem reads_getFrame (cmd : Byte) : Reads (getFrame cmd) fun x => x.2.2.payload.length = lenOf cmd :=
  reads_readThen reads_getByte fun _ _ => reads_readThen reads_getByte fun _ _ => reads_readThen (reads_getBytes _) fun _ hlen =>
  reads_readThen reads_getByte fun _ _ => reads_readThen reads_getChan fun _ _ => reads_readThen reads_getNat fun _ _ =>
  reads_readDone hlen

/-! ## Decode accepts well-formed operations only -/

theorem reads_decodeFrame (cmd : Byte) : Reads (decodeFrame cmd) Instr.WellFormed :=
  reads_readThen (reads_getFrame cmd) fun x hlen =>
  reads_readDone ((wellFormed_frame (frameOf_frameInstr cmd x)).2 ⟨hlen, rfl⟩)

theorem reads_decodeEscaped : Reads decodeEscaped Instr.WellFormed :=
  reads_readThen reads_getByte fun cmd _ => by
    split
    · exact reads_decodeFrame cmd
    · exact reads_readError _

theorem reads_decodeInit : Reads decodeInit Instr.WellFormed :=
  reads_readThen reads_getConfig fun _ _ => reads_readThen reads_getConfig fun _ _ => reads_readDone rfl

theorem reads_decodeOrchTick : Reads decodeOrchTick Instr.WellFormed :=
  reads_readThen reads_getNat fun _ _ => reads_readThen reads_getAnswer fun _ _ => reads_readThen reads_getAnswer fun _ _ =>
  reads_readDone rfl

theorem reads_decodeChTick : Reads decodeChTick Instr.WellFormed :=
  reads_readThen reads_getChan fun _ _ => reads_readThen reads_getNat fun _ _ => reads_readThen reads_getAnswer fun _ _ =>
  reads_readDone rfl

theorem reads_decodeChRx : Reads decodeChRx Instr.WellFormed :=
  reads_readThen reads_getChan fun _ _ => reads_readThen reads_getByte fun _ _ => reads_readThen reads_getNat fun _ _ =>
  reads_readDone rfl

theorem reads_decodeSendCommand : Reads decodeSendCommand Instr.WellFormed :=
  reads_readThen reads_getChan fun _ _ => reads_readThen reads_getNat fun _ _ => reads_readThen reads_getByte fun _ _ =>
  reads_readThen reads_getList fun _ _ => reads_readThen reads_getAnswer fun _ _ => reads_readDone rfl

theorem reads_decodeBuildFrame : Reads decodeBuildFrame Instr.WellFormed :=
  reads_readThen reads_getNat fun _ _ => reads_readThen reads_getByte fun _ _ => reads_readThen reads_getList fun _ _ =>
  reads_readThen reads_getNat fun _ _ => reads_readDone rfl

theorem reads_decodeChecksum : Reads decodeChecksum Instr.WellFormed :=
  reads_readThen reads_getList fun _ _ => reads_readDone rfl

theorem reads_decodeParserConsume : Reads decodeParserConsume Instr.WellFormed :=
  reads_readThen reads_getChan fun _ _ => reads_readThen reads_getByte fun _ _ => reads_readDone rfl

theorem reads_decodeParserReset : Reads decodeParserReset Instr.WellFormed :=
  reads_readThen reads_getChan fun _ _ => reads_readDone rfl

/-- After the first byte, which selects the row (R82), the row's reader reads a well-formed operation. -/
theorem reads_decode_cons (b : Byte) : Reads (fun bs => decode (b :: bs)) Instr.WellFormed := by
  intro bs i rest h
  simp only [decode] at h
  split at h
  · exact reads_decodeInit h
  split at h
  · exact reads_decodeOrchTick h
  split at h
  · exact reads_decodeChTick h
  split at h
  · exact reads_decodeChRx h
  split at h
  · exact reads_decodeSendCommand h
  split at h
  · exact reads_decodeBuildFrame h
  split at h
  · exact reads_decodeChecksum h
  split at h
  · exact reads_decodeParserConsume h
  split at h
  · exact reads_decodeParserReset h
  split at h
  · exact reads_decodeEscaped h
  · exact reads_decodeFrame b h

/-- Settles O3: the first byte is used, and what follows it is read by the reader of the row it selects. -/
theorem decodedOperationsAreWellFormed : Obligations.DecodedOperationsAreWellFormed := by
  intro bs i rest h
  cases bs with
  | nil => cases h
  | cons b bs =>
    obtain ⟨hwf, used, rfl⟩ := reads_decode_cons b h
    exact ⟨hwf, b :: used, List.cons_ne_nil _ _, rfl⟩

/-! ## Written words, and channels that do not exist -/

/-- Settles O4: the decoder evaluates on each word. -/
theorem writtenWordsDecode : Obligations.WrittenWordsDecode := ⟨rfl, rfl, rfl, rfl, rfl⟩

/-- A channel operand other than 0 and 1 is refused by name (R83, R84). -/
theorem getChan_bad {b : Byte} (h0 : b ≠ 0x00#8) (h1 : b ≠ 0x01#8) (rest : List Byte) :
    getChan (b :: rest) = .error (.badChannel b) := by
  rw [getChan, if_neg h0, if_neg h1]

/-- A reader stops at the first operand that cannot be read. -/
theorem readThen_error {α β : Type} {r : Reader α} {bs : List Byte} {e : DecodeError} (h : r bs = .error e) (go : α → Reader β) :
    readThen r go bs = .error e := by
  rw [readThen, h]

/-- The operations of R82 that name a channel name it first, so its refusal is theirs. -/
theorem decode_badChannel {tag b : Byte} (ht : tag ∈ [0x03#8, 0x04#8, 0x05#8, 0x08#8, 0x09#8]) (h0 : b ≠ 0x00#8) (h1 : b ≠ 0x01#8)
    (rest : List Byte) : decode (tag :: b :: rest) = .error (.badChannel b) := by
  simp only [List.mem_cons, List.not_mem_nil, or_false] at ht
  obtain rfl | rfl | rfl | rfl | rfl := ht <;> exact readThen_error (getChan_bad h0 h1 rest) _

/-- Settles O5: bytes with such a channel are no operation. -/
theorem otherChannelsAreRefused : Obligations.OtherChannelsAreRefused := by
  intro s tag b rest ht h0 h1 hs
  refine step_of_fetch_error (fetch_undecodable (by simp [hs]) ?_)
  rw [hs]
  exact decode_badChannel ht h0 h1 rest

end Sys2Proof
end

section
/-! The eight frame rows (O45, O46, O47): a row is one CH_RX for each byte of its frame (log entry 5), and a whole frame in an open window
ends it with what its checksum says. Then the answers of CH_TICK and SEND_COMMAND (O30). -/

namespace Sys2Proof.Machine

open Sys2Proof.Spec

/-! ## The spec's words and the model's -/

theorem xorAll_eq_checksumOf (xs : List Byte) : xorAll xs = checksumOf xs := by
  induction xs with
  | nil => rfl
  | cons x xs ih => rw [xorAll, checksumOf_cons, ih]

/-- R76's table, written over the byte and over its value. -/
theorem tableLen_eq_lenOf (cmd : Byte) : tableLen cmd = lenOf cmd := by
  revert cmd
  decide

/-- Bytes written from offset 0 are a frame written, in R52's sense. -/
theorem wroteFrame_writeBytes {m : Memory} (h : m.wf = true) (bytes : List Byte) : WroteFrame m bytes (m.writeBytes 0 bytes) :=
  ⟨wf_writeBytes h 0 bytes, fun k => by simp [read_writeBytes h]⟩

/-! ## A frame row is its bytes -/

section Receive
variable {c : Chan} {now : Nat} {s : State}

/-- Before INIT the first byte is refused, and with it the line (R161). -/
theorem receive_beforeInit (h : s.initialized = false) (b : Byte) (bs : List Byte) :
    receive c now (b :: bs) s = .refused .beforeInit := by
  simp [receive, exec, execChRx, admitted, h]

/-- After INIT a line of CH_RX is an RX line, with what it answers (R85). -/
theorem receive_eq_rxBytes (h : s.initialized = true) (bs : List Byte) : receive c now bs s = ofFault (rxBytes c now bs s) := by
  induction bs generalizing s with
  | nil => rfl
  | cons b bs ih =>
    have hexec : exec (.chRx c b now) s = ofFault (rxByte c b now s) := admitted_of h _
    rw [receive, hexec, rxBytes]
    cases hb : rxByte c b now s with
    | error e => rfl
    | ok t => exact ih ((rxByte_onChannel hb).initialized.trans h)

end Receive

/-- A frame row receives its wire bytes, once the block is admitted (R70, R85). -/
theorem exec_frameRow (cmd : Byte) (c : Chan) (now : Nat) (f : WireFrame) (s : State) :
    exec (frameRow cmd c now f) s = admitted s (ofFault (rxBytes c now (wireBytes cmd f) s)) :=
  exec_frame (frameOf_frameRow cmd c now f) s

/-- Settles O47: before INIT both are refused, and after it both are one RX line. -/
theorem frameRowsAreTheirBytes : Obligations.FrameRowsAreTheirBytes := by
  intro cmd c now f s
  rw [exec_frameRow]
  cases h : s.initialized with
  | false =>
    rw [List.cons_append, List.cons_append, receive_beforeInit h, admitted, h]
    rfl
  | true =>
    rw [admitted_of h]
    exact (receive_eq_rxBytes h _).symm

/-! ## A whole frame in an open window -/

/-- What a frame's checksum byte makes of it (R106, R107). -/
def frameOutcome (cmd : Byte) (f : WireFrame) : ParserOutcome :=
  if f.checksum = checksumOf ([f.addrHi, f.addrLo, cmd] ++ f.payload) then .success ⟨f.addrLo, cmd, f.payload⟩ else .checksumError

/-- The parser a whole frame leaves: reset, with all of the frame but its checksum byte in the buffer (R101 to R109). -/
def frameParser (cmd : Byte) (f : WireFrame) (m : Memory) : ParserState :=
  { pstate := .waitSyn
    buf := m.writeBytes 0 ([Config.sync, f.addrHi, f.addrLo, cmd] ++ f.payload)
    index := 0
    cmd := cmd
    expectedLen := lenOf cmd }

/-- A frame with the table's payload length, received in an open window from WaitSyn: all bytes but the last are InProgress, and the
scheduler acts on the outcome of the last (R70, R79, R142 to R144). -/
theorem exec_frameRow_waiting {cmd : Byte} {c : Chan} {now : Nat} {f : WireFrame} {s : State} (hi : s.initialized = true)
    (hst : (s.ch c).schedState = .waitingReply) (hw : (s.ch c).parser.buf.wf = true) (hcap : 26 ≤ s.capacity)
    (hp : (s.ch c).parser.pstate = .waitSyn) (h0 : (s.ch c).parser.index = 0) (hlen : f.payload.length = lenOf cmd) :
    exec (frameRow cmd c now f) s = .next (onOutcome c now (frameOutcome cmd f)
      (s.setCh c { s.ch c with lastRxTime := now, parser := frameParser cmd f (s.ch c).parser.buf })) := by
  obtain ⟨q, hq, rfl⟩ := frame_inProgress f.addrHi f.addrLo cmd f.payload hp h0 hw hcap hlen.le
  have hbody := rxBytes_inProgress (now := now) hq rfl hst rfl (by simp)
  rw [if_pos hlen] at hbody
  have hend := consume_frame_end (c := c) f.addrHi f.addrLo cmd f.checksum f.payload hw hcap hlen rfl
  rw [exec_frameRow, admitted_of hi, wireBytes, rxBytes_append hbody, rxBytes, rxByte_forward (by simpa using hst) (by simpa using hend)]
  simp [rxBytes, ofFault, frameOutcome, frameParser, resetParser]

/-- Settles O45: the checksum matches, so the outcome is Success. -/
theorem receivedFrameIsDelivered : Obligations.ReceivedFrameIsDelivered := by
  intro cmd c now f s hi hst hw hcap hp h0 hlen hcs
  rw [tableLen_eq_lenOf] at hlen
  rw [xorAll_eq_checksumOf] at hcs
  refine ⟨_, wroteFrame_writeBytes hw _, ?_⟩
  rw [exec_frameRow_waiting hi hst hw hcap hp h0 hlen, frameOutcome, if_pos hcs, tableLen_eq_lenOf]
  cases c <;> rfl

/-- Settles O46: the checksum does not match, so the outcome is ChecksumError. -/
theorem corruptedFrameIsReported : Obligations.CorruptedFrameIsReported := by
  intro cmd c now f s hi hst hw hcap hp h0 hlen hcs
  rw [tableLen_eq_lenOf] at hlen
  rw [xorAll_eq_checksumOf] at hcs
  refine ⟨_, wroteFrame_writeBytes hw _, ?_⟩
  rw [exec_frameRow_waiting hi hst hw hcap hp h0 hlen, frameOutcome, if_neg hcs, tableLen_eq_lenOf]
  cases c <;> rfl

/-! ## Answers that do not fit -/

section Send
variable {c : Chan} {addr : Nat} {cmd : Byte} {payload : List Byte} {s : State}

/-- A valid command is sent, and so needs its answer (R84, R164). -/
theorem send_unanswered (h : validate addr payload.length Config.txBufSize = none) :
    send c addr cmd payload none s = .error (.answerMissing c) := by
  simp only [send, h]

/-- An invalid command is not sent, and takes no answer (R84, R164). -/
theorem send_overanswered (h : validate addr payload.length Config.txBufSize ≠ none) (r : SendResult) :
    send c addr cmd payload (some r) s = .error (.answerUnexpected c) := by
  obtain ⟨v, hv⟩ := Option.ne_none_iff_exists'.1 h
  simp only [send, hv]

/-- SEND_COMMAND's buffer holds the longest frame, so only the address and the length can be wrong (R164). -/
theorem validate_txBuf_eq_none_iff :
    validate addr payload.length Config.txBufSize = none ↔ (1 ≤ addr ∧ addr ≤ 32) ∧ payload.length ≤ 22 := by
  rw [validate_eq_none_iff]
  exact and_congr_right fun _ => and_iff_left_of_imp (Nat.add_le_add_left · 5)

end Send

/-- Settles O30: by what a tick and a SEND_COMMAND answer when a send is made and when none is. -/
theorem answersMustFitTheSend : Obligations.AnswersMustFitTheSend := by
  intro c s hi
  have ticks (now : Nat) (a : Option SendResult) : exec (.chTick c now a) s = ofRefusal (tick c now a s) := admitted_of hi _
  have sends (addr : Nat) (cmd : Byte) (payload : List Byte) (a : Option SendResult) :
      exec (.sendCommand c addr cmd payload a) s = ofRefusal (send c addr cmd payload a s) := admitted_of hi _
  refine ⟨fun now ⟨hidle, hdue⟩ => ?_, fun now r hd => ?_, fun addr cmd payload ha hl => ?_, fun addr cmd payload r hbad => ?_⟩
  · rw [ticks, (tick_due hidle hdue .ok).1]
    rfl
  · rw [ticks, (tick_notDue hd r).1]
    rfl
  · rw [sends, send_unanswered (validate_txBuf_eq_none_iff.2 ⟨ha, hl⟩)]
    rfl
  · have hv : ¬ validate addr payload.length Config.txBufSize = none := fun h => by
      have := validate_txBuf_eq_none_iff.1 h
      omega
    rw [sends, send_overanswered hv]
    rfl

end Sys2Proof.Machine
end

section
/-! FrameCodec (40_codec.md): the laws of CHECKSUM (O6, O7), what BUILD_FRAME writes and what it refuses (O8, O9), and its frames fed back
to the parser (O10, O11). -/

namespace Sys2Proof.Machine

open Sys2Proof.Spec

/-! ## CHECKSUM (R90, R91) -/

/-- Each bit of the checksum is the parity of that bit over the list (R90). -/
theorem checksumOf_getLsbD (xs : List Byte) (k : Nat) :
    (checksumOf xs).getLsbD k = decide (xs.countP (fun b => b.getLsbD k) % 2 = 1) := by
  induction xs with
  | nil => simp [checksumOf_nil]
  | cons x xs ih =>
    rw [checksumOf_cons, BitVec.getLsbD_xor, ih, List.countP_cons]
    cases x.getLsbD k with
    | false => simp
    | true =>
      rcases Nat.mod_two_eq_zero_or_one (xs.countP fun b => b.getLsbD k) with hpar | hpar <;> simp [hpar, Nat.add_mod]

/-- Settles O6: the checksum's bits are parities. -/
theorem checksumReturnsTheParityOfEachBit : Obligations.ChecksumReturnsTheParityOfEachBit :=
  fun bytes _ => ⟨checksumOf bytes, rfl, fun k _ => checksumOf_getLsbD bytes k⟩

/-- A difference in one byte is the same difference in the checksum. -/
theorem checksumOf_flip (xs ys : List Byte) (b d : Byte) :
    checksumOf (xs ++ [b ^^^ d] ++ ys) = checksumOf (xs ++ [b] ++ ys) ^^^ d := by
  simp only [checksumOf_append, checksumOf_cons, checksumOf_nil]
  ac_rfl

/-- The same difference in two bytes cancels. -/
theorem checksumOf_flip_flip (xs ys zs : List Byte) (a b d : Byte) :
    checksumOf (xs ++ [a ^^^ d] ++ ys ++ [b ^^^ d] ++ zs) = checksumOf (xs ++ [a] ++ ys ++ [b] ++ zs) := by
  have hfirst := checksumOf_flip xs (ys ++ [b] ++ zs) a d
  simp only [← List.append_assoc] at hfirst
  rw [checksumOf_flip, hfirst, BitVec.xor_assoc, BitVec.xor_self, BitVec.xor_zero]

/-- One flipped bit is a difference. -/
theorem twoPow_ne_zero {k : Nat} (h : k < 8) : BitVec.twoPow 8 k ≠ 0x00#8 := fun h0 => by
  have hbit : (BitVec.twoPow 8 k).getLsbD k = true := by simp [h]
  rw [h0] at hbit
  simp at hbit

/-- Settles O7: by what one difference does to the checksum. -/
theorem checksumDetectsOneFlipAndNotTwo : Obligations.ChecksumDetectsOneFlipAndNotTwo := by
  refine ⟨fun xs => ?_, fun xs ys b k hk heq => ?_, fun xs ys zs a b k => checksumOf_flip_flip xs ys zs a b _⟩
  · rw [checksumOf_append, checksumOf_cons, checksumOf_nil, BitVec.xor_zero, BitVec.xor_self]
  · rw [checksumOf_flip] at heq
    exact twoPow_ne_zero hk (by simpa using heq)

/-! ## BUILD_FRAME (R92, R93, R95) -/

/-- The frame of R70, from the spec's checksum and from the model's. -/
theorem frame_eq_frameBytes (addr : Nat) (cmd : Byte) (payload : List Byte) : frame addr cmd payload = frameBytes addr cmd payload := by
  rw [frame, xorAll_eq_checksumOf]
  rfl

theorem frame_length (addr : Nat) (cmd : Byte) (payload : List Byte) : (frame addr cmd payload).length = 5 + payload.length := by
  rw [frame_eq_frameBytes, frameBytes_length]

section Validate
variable {addr n outCap : Nat}

/-- The address is checked first (R92, D13). -/
theorem validate_badAddress (h : addr < 1 ∨ 32 < addr) : validate addr n outCap = some .addressOutOfRange := by
  have hbad : addressLegal addr = false := by
    rw [← Bool.not_eq_true, addressLegal_iff]
    omega
  exact if_pos hbad

/-- With a legal address, the payload length is checked next (R92, D13). -/
theorem validate_legalAddress (h : 1 ≤ addr ∧ addr ≤ 32) : validate addr n outCap =
    if 22 < n then some .payloadTooLong else if outCap < 5 + n then some .bufferTooSmall else none := by
  rw [validate, (addressLegal_iff addr).2 h]
  rfl

end Validate

/-- The state a BUILD_FRAME with valid arguments leaves: the frame in the caller's buffer from offset 0, its length returned (R92, R95). -/
def frameBuilt (addr : Nat) (cmd : Byte) (payload : List Byte) (s : State) : State :=
  { s with
    outBuf := s.outBuf.writeBytes 0 (frame addr cmd payload)
    returned := s.returned ++ [.buildFrame (.len (5 + payload.length))] }

section BuildFrame
variable {addr : Nat} {cmd : Byte} {payload : List Byte} {outCap : Nat} {s : State}

/-- Invalid arguments: the reason is returned and nothing is written (R93). -/
theorem exec_buildFrame_invalid {r : ValidationReason} (h : validate addr payload.length outCap = some r) :
    exec (.buildFrame addr cmd payload outCap) s = .next { s with returned := s.returned ++ [.buildFrame (.validationError r)] } := by
  have hb : buildInto addr cmd payload outCap s.outBuf = (.validationError r, s.outBuf) := by
    rw [buildInto, h]
  rw [exec, execBuildFrame, hb]
  rfl

@[simp] theorem frameBuilt_initialized : (frameBuilt addr cmd payload s).initialized = s.initialized := rfl
@[simp] theorem frameBuilt_capacity : (frameBuilt addr cmd payload s).capacity = s.capacity := rfl
@[simp] theorem frameBuilt_ch (c : Chan) : (frameBuilt addr cmd payload s).ch c = s.ch c := by cases c <;> rfl

/-- Valid arguments: the frame is built (R92). -/
theorem exec_buildFrame_valid (h : validate addr payload.length outCap = none) :
    exec (.buildFrame addr cmd payload outCap) s = .next (frameBuilt addr cmd payload s) := by
  have hb : buildInto addr cmd payload outCap s.outBuf =
      (.len (5 + payload.length), s.outBuf.writeBytes 0 (frame addr cmd payload)) := by
    rw [buildInto, h, frame_eq_frameBytes]
  rw [exec, execBuildFrame, hb]
  rfl

end BuildFrame

/-- Settles O8: valid arguments pass the checks, so the frame is written. -/
theorem buildFrameWritesTheFrame : Obligations.BuildFrameWritesTheFrame := by
  intro addr cmd payload outCap s h1 h32 hlen hcap hw
  exact ⟨_, wroteFrame_writeBytes hw _, exec_buildFrame_valid ((validate_eq_none_iff ..).2 ⟨⟨h1, h32⟩, hlen, hcap⟩)⟩

/-- Settles O9: by the first check that fails. -/
theorem buildFrameReportsTheFirstViolation : Obligations.BuildFrameReportsTheFirstViolation := by
  intro addr cmd payload outCap s
  refine ⟨fun haddr => ?_, fun haddr hlong => ?_, fun haddr hlen hcap => ?_⟩
  · exact exec_buildFrame_invalid (validate_badAddress haddr)
  · exact exec_buildFrame_invalid (by rw [validate_legalAddress haddr, if_pos hlong])
  · exact exec_buildFrame_invalid (by rw [validate_legalAddress haddr, if_neg (Nat.not_lt.2 hlen), if_pos hcap])

/-! ## A frame fed to the parser (R96) -/

/-- `[BufRead(c, i) for i in lo .. hi-1]`, as the model reads it (R106). -/
theorem bufBytes_eq_readBytes (m : Memory) (lo hi : Nat) : bufBytes m lo hi = m.readBytes lo (hi - lo) := by
  rw [bufBytes]
  generalize hi - lo = n
  induction n generalizing lo with
  | zero => rfl
  | succ n ih => rw [List.range'_succ, List.map_cons, ih, Memory.readBytes]

/-- The bytes written from offset 0 are read back. -/
theorem bufBytes_writeBytes {m : Memory} (h : m.wf = true) (bytes : List Byte) :
    bufBytes (m.writeBytes 0 bytes) 0 bytes.length = bytes := by
  rw [bufBytes_eq_readBytes]
  exact readBytes_writeBytes h [] bytes

/-- PARSER_CONSUME on an admitted channel writes the parser and returns the outcome (R100). -/
theorem exec_parserConsume_next {c : Chan} {b : Byte} {o : ParserOutcome} {p : ParserState} {s : State} (hi : s.initialized = true)
    (h : consume c s.capacity (s.ch c).parser b = .ok (o, p)) : exec (.parserConsume c b) s = .next (consumed s c p o) := by
  rw [exec, execParserConsume, admitted_of hi, h]
  cases c <;> rfl

/-- The state after `n` bytes that all gave InProgress and left `p` in the parser. -/
def fedInProgress (s : State) (c : Chan) (p : ParserState) (n : Nat) : State :=
  { s.setParser c p with returned := s.returned ++ List.replicate n (.parserConsume .inProgress) }

section Feed
variable {c : Chan} {s : State} {p q : ParserState}

@[simp] theorem consumed_initialized (o : ParserOutcome) : (consumed s c p o).initialized = s.initialized := by cases c <;> rfl
@[simp] theorem consumed_capacity (o : ParserOutcome) : (consumed s c p o).capacity = s.capacity := by cases c <;> rfl
@[simp] theorem consumed_parser (o : ParserOutcome) : ((consumed s c p o).ch c).parser = p := by cases c <;> rfl

@[simp] theorem fedInProgress_initialized (n : Nat) : (fedInProgress s c p n).initialized = s.initialized := by cases c <;> rfl
@[simp] theorem fedInProgress_capacity (n : Nat) : (fedInProgress s c p n).capacity = s.capacity := by cases c <;> rfl
@[simp] theorem fedInProgress_parser (n : Nat) : ((fedInProgress s c p n).ch c).parser = p := by cases c <;> rfl
@[simp] theorem fedInProgress_returned (n : Nat) :
    (fedInProgress s c p n).returned = s.returned ++ List.replicate n (.parserConsume .inProgress) := rfl

theorem fedInProgress_zero : fedInProgress s c (s.ch c).parser 0 = s := by
  cases c <;> simp [fedInProgress, State.setParser, State.setCh, State.ch]

theorem fedInProgress_succ (n : Nat) : fedInProgress (consumed s c p .inProgress) c q n = fedInProgress s c q (n + 1) := by
  cases c <;> simp [fedInProgress, consumed, State.setParser, State.setCh, State.ch, List.replicate_succ]

/-- Feeding a byte goes on from the state its PARSER_CONSUME leaves. -/
theorem feed_cons {b : Byte} {o : ParserOutcome} (hi : s.initialized = true) (h : consume c s.capacity (s.ch c).parser b = .ok (o, p))
    (rest : List Byte) : feed c (b :: rest) s = feed c rest (consumed s c p o) := by
  rw [feed, exec_parserConsume_next hi h]

/-- Feeding bytes that all give InProgress goes on from the state they leave. -/
theorem feed_inProgress {cap : Nat} {bs : List Byte} (h : InProgress c cap bs p q) (rest : List Byte) (hi : s.initialized = true)
    (hcap : s.capacity = cap) (hp : (s.ch c).parser = p) : feed c (bs ++ rest) s = feed c rest (fedInProgress s c q bs.length) := by
  induction h generalizing s with
  | nil => rw [← hp, List.length_nil, fedInProgress_zero, List.nil_append]
  | cons h _ ih =>
    rw [← hcap, ← hp] at h
    rw [List.cons_append, feed_cons hi h, ih (by simpa using hi) (by simpa using hcap) (by simp), fedInProgress_succ, List.length_cons]

/-- A terminal byte after InProgress bytes: the last parser and every outcome are what remains of them. -/
theorem consumed_fedInProgress (n : Nat) (o : ParserOutcome) : consumed (fedInProgress s c p n) c q o =
    { s.setParser c q with
      returned := s.returned ++ List.replicate n (.parserConsume .inProgress) ++ [.parserConsume o] } := by
  cases c <;> rfl

/-- A whole frame with the table's payload length, fed from WaitSyn: InProgress for every byte but the last, then what its checksum says
(R79, R101 to R109). -/
theorem feed_wireBytes {cmd : Byte} {f : WireFrame} (hi : s.initialized = true) (hw : (s.ch c).parser.buf.wf = true)
    (hcap : 26 ≤ s.capacity) (hp : (s.ch c).parser.pstate = .waitSyn) (h0 : (s.ch c).parser.index = 0)
    (hlen : f.payload.length = lenOf cmd) : feed c (wireBytes cmd f) s =
      some { s.setParser c (frameParser cmd f (s.ch c).parser.buf) with
        returned := s.returned ++ List.replicate (4 + f.payload.length) (.parserConsume .inProgress) ++
          [.parserConsume (frameOutcome cmd f)] } := by
  obtain ⟨q, hbody, hq⟩ := frame_inProgress f.addrHi f.addrLo cmd f.payload hp h0 hw hcap hlen.le
  rw [if_pos hlen] at hq
  have hend := consume_frame_end (c := c) f.addrHi f.addrLo cmd f.checksum f.payload hw hcap hlen hq
  have hcount : ([Config.sync, f.addrHi, f.addrLo, cmd] ++ f.payload).length = 4 + f.payload.length := by
    rw [List.length_append]
    rfl
  rw [wireBytes, feed_inProgress hbody _ hi rfl rfl, feed_cons (by simpa using hi) (by simpa using hend), feed, consumed_fedInProgress,
    hcount, hq]
  rfl

end Feed

section Built
variable (addr : Nat) (cmd : Byte) (payload : List Byte)

/-- The frame of R70 as a wire frame: it carries its own checksum. -/
def builtFrame : WireFrame :=
  ⟨0x00#8, BitVec.ofNat 8 addr, payload, checksumOf ([0x00#8, BitVec.ofNat 8 addr, cmd] ++ payload)⟩

theorem wireBytes_builtFrame : wireBytes cmd (builtFrame addr cmd payload) = frame addr cmd payload := by
  rw [frame, xorAll_eq_checksumOf]
  rfl

/-- A built frame's checksum matches (R106). -/
theorem frameOutcome_builtFrame :
    frameOutcome cmd (builtFrame addr cmd payload) = .success ⟨BitVec.ofNat 8 addr, cmd, payload⟩ := if_pos rfl

end Built

/-- Settles O10: the bytes read back are a wire frame whose checksum matches. -/
theorem builtFramesParseBack : Obligations.BuiltFramesParseBack := by
  intro c addr cmd payload s hi hout hw hcap hp h0 h1 h32 hlen
  rw [tableLen_eq_lenOf] at hlen
  have hvalid : validate addr payload.length 27 = none := by
    have hmax := lenOf_le cmd
    exact (validate_eq_none_iff ..).2 ⟨⟨h1, h32⟩, by omega, by omega⟩
  have hread : bufBytes (frameBuilt addr cmd payload s).outBuf 0 (5 + payload.length) = frame addr cmd payload := by
    rw [← frame_length addr cmd payload]
    exact bufBytes_writeBytes hout _
  have hfeed := feed_wireBytes (c := c) (s := frameBuilt addr cmd payload s) (f := builtFrame addr cmd payload) (by simpa using hi)
    (by simpa using hw) (by simpa using hcap) (by simpa using hp) (by simpa using h0) hlen
  rw [wireBytes_builtFrame, frameOutcome_builtFrame] at hfeed
  refine ⟨_, _, exec_buildFrame_valid hvalid, hread ▸ hfeed, rfl, ?_⟩
  cases c <;> exact ⟨rfl, rfl⟩

/-- Settles O11: the parser takes the checksum byte for one more payload byte. -/
theorem shortPayloadsLeaveTheParserWaiting : Obligations.ShortPayloadsLeaveTheParserWaiting := by
  intro c addr cmd payload s hi hw hcap hp h0 hshort
  rw [tableLen_eq_lenOf] at hshort ⊢
  have hlen : (payload ++ [xorAll ([0x00#8, BitVec.ofNat 8 addr, cmd] ++ payload)]).length = payload.length + 1 := List.length_append
  obtain ⟨q, hall, hq⟩ := frame_inProgress (c := c) 0x00#8 (BitVec.ofNat 8 addr) cmd _ hp h0 hw hcap (hlen.trans_le hshort)
  rw [← List.append_assoc] at hall
  have hfeed := feed_inProgress hall [] hi rfl rfl
  rw [List.append_nil] at hfeed
  have hcount := frame_length addr cmd payload
  rw [hlen] at hq
  refine ⟨_, hfeed, ?_, ?_, ?_⟩
  · rw [fedInProgress_returned, ← hcount]
    rfl
  · rw [fedInProgress_parser, hq]
    simp only
    omega
  · rw [fedInProgress_parser, hq]

end Sys2Proof.Machine
end

section
/-! FrameParser (41_parser.md): what PARSER_CONSUME makes of a buffered byte (O12 to O16) and of a checksum byte (O17, O18), PARSER_RESET
(O19), when the parser is reset and when it cannot overflow (O20, O21), and whole byte strings fed to it (O22, O23). -/

namespace Sys2Proof.Machine

open Sys2Proof.Spec

/-! ## Buffered bytes (R101 to R105, R110) -/

/-- One byte written to a buffer, in R51's sense. -/
theorem wrote_write {m : Memory} (h : m.wf = true) (i : Nat) (v : Byte) : Wrote m i v (m.write i v) :=
  ⟨wf_write h i v, fun k => read_write h i k v⟩

/-- The parser buffers every byte outside WaitSyn and WaitChecksum, and in WaitSyn the sync marker. -/
theorem buffers_iff {p : ParserState} {b : Byte} :
    buffers p b ↔ p.pstate ≠ .waitChecksum ∧ (p.pstate = .waitSyn → b = Config.sync) := by
  cases hp : p.pstate <;> simp [buffers, hp]

section Buffered
variable {c : Chan} {b : Byte} {s : State}

/-- With no room the byte is discarded and the parser reset (R110). -/
theorem exec_parserConsume_overflow (hi : s.initialized = true) (hb : buffers (s.ch c).parser b)
    (hfull : s.capacity ≤ (s.ch c).parser.index) : exec (.parserConsume c b) s = .next (overflowed s c) :=
  exec_parserConsume_next hi (consume_overflow hb hfull)

/-- With room the byte is pushed and the parser advanced (R101 to R105, R110). -/
theorem exec_parserConsume_push (hi : s.initialized = true) (hb : buffers (s.ch c).parser b)
    (hroom : (s.ch c).parser.index < s.capacity) : exec (.parserConsume c b) s =
      .next (consumed s c (advance (s.ch c).parser.pstate b (pushed (s.ch c).parser b)) .inProgress) :=
  exec_parserConsume_next hi (consume_push hb hroom)

/-- Both cases of a buffered byte, when `go` is what the parser becomes around the written buffer. -/
theorem exec_parserConsume_buffered {go : Memory → ParserState} (hi : s.initialized = true) (hb : buffers (s.ch c).parser b)
    (hgo : advance (s.ch c).parser.pstate b (pushed (s.ch c).parser b) = go ((s.ch c).parser.buf.write (s.ch c).parser.index b)) :
    (s.capacity ≤ (s.ch c).parser.index → exec (.parserConsume c b) s = .next (overflowed s c)) ∧
    ((s.ch c).parser.index < s.capacity → (s.ch c).parser.buf.wf = true →
      ∃ m, Wrote (s.ch c).parser.buf (s.ch c).parser.index b m ∧
        exec (.parserConsume c b) s = .next (consumed s c (go m) .inProgress)) :=
  ⟨exec_parserConsume_overflow hi hb,
    fun hroom hw => ⟨_, wrote_write hw _ _, hgo ▸ exec_parserConsume_push hi hb hroom⟩⟩

end Buffered

/-- Settles O12: noise changes nothing, and the sync marker is a buffered byte. -/
theorem waitSynSearchesForTheSyncMarker : Obligations.WaitSynSearchesForTheSyncMarker := by
  intro c b s hi hp
  refine ⟨fun hne => exec_parserConsume_next hi (consume_noise hp hne), ?_⟩
  have hsync (h : b = 0x02#8) := exec_parserConsume_buffered (c := c) (go := fun m =>
    { (s.ch c).parser with pstate := .waitAddrHi, buf := m, index := (s.ch c).parser.index + 1 }) hi
    (buffers_iff.2 ⟨by simp [hp], fun _ => h⟩) (by rw [hp]; rfl)
  exact ⟨fun h => (hsync h).1, fun h => h ▸ (hsync h).2⟩

/-- Settles O13: both address states buffer their byte and go to the next state. -/
theorem addressBytesAreBufferedUnconditionally : Obligations.AddressBytesAreBufferedUnconditionally := by
  rintro c b s before after hi hp (⟨rfl, rfl⟩ | ⟨rfl, rfl⟩) <;>
    exact exec_parserConsume_buffered hi (buffers_iff.2 (by simp [hp])) (by rw [hp]; rfl)

/-- Settles O14: the model's table is R76's. -/
theorem commandByteSelectsThePayloadLength : Obligations.CommandByteSelectsThePayloadLength := by
  intro c b s hi hp
  rw [tableLen_eq_lenOf]
  exact exec_parserConsume_buffered hi (buffers_iff.2 (by simp [hp])) (by rw [hp]; rfl)

/-- A payload byte moves the parser to WaitChecksum exactly when it is the last one (R105). -/
theorem advance_waitData {p : ParserState} (hp : p.pstate = .waitData) (b : Byte) :
    advance .waitData b (pushed p b) = { p with
      pstate := if p.index + 1 = 4 + p.expectedLen then .waitChecksum else .waitData
      buf := p.buf.write p.index b
      index := p.index + 1 } := by
  by_cases hlast : p.index + 1 = 4 + p.expectedLen
  · rw [if_pos hlast]
    exact if_pos hlast
  · rw [if_neg hlast]
    refine (if_neg hlast).trans ?_
    rw [pushed, hp]

/-- Settles O15: the byte that completes the payload is the one that moves the parser on. -/
theorem payloadBytesAreCounted : Obligations.PayloadBytesAreCounted := by
  intro c b s hi hp
  exact exec_parserConsume_buffered hi (buffers_iff.2 (by simp [hp])) (by rw [hp]; exact advance_waitData hp b)

/-- Settles O16: whatever the state, advancing keeps the written buffer and the index past it. -/
theorem bufferedBytesAreGuarded : Obligations.BufferedBytesAreGuarded := by
  intro c b s hi hne hsync
  have hb := buffers_iff.2 ⟨hne, hsync⟩
  refine ⟨exec_parserConsume_overflow hi hb, fun hroom hw => ⟨_, ?_, advance_index .., exec_parserConsume_push hi hb hroom⟩⟩
  rw [advance_buf]
  exact wrote_write hw _ _

/-! ## The checksum byte (R106 to R109) and PARSER_RESET (R111) -/

/-- The byte in WaitChecksum is compared with the checksum of the buffered bytes but the sync marker (R106, R107). -/
theorem exec_parserConsume_checksum {c : Chan} {s : State} (b : Byte) (hi : s.initialized = true)
    (hp : (s.ch c).parser.pstate = .waitChecksum) (h4 : 4 ≤ (s.ch c).parser.index) (hcap : (s.ch c).parser.index ≤ s.capacity) :
    exec (.parserConsume c b) s = .next (consumed s c (cleared (s.ch c).parser)
      (if b = xorAll (bufBytes (s.ch c).parser.buf 1 (s.ch c).parser.index) then .success (parsed (s.ch c).parser)
        else .checksumError)) := by
  rw [xorAll_eq_checksumOf, parsed, bufBytes_eq_readBytes, bufBytes_eq_readBytes]
  exact exec_parserConsume_next hi (consume_checksum hp (by omega) hcap)

/-- Settles O17: the comparison succeeds. -/
theorem matchingChecksumYieldsTheFrame : Obligations.MatchingChecksumYieldsTheFrame := by
  intro c b s hi hp h4 hcap hb
  rw [exec_parserConsume_checksum b hi hp h4 hcap, if_pos hb]

/-- Settles O18: the comparison fails. -/
theorem wrongChecksumIsAnError : Obligations.WrongChecksumIsAnError := by
  intro c b s hi hp h4 hcap hb
  rw [exec_parserConsume_checksum b hi hp h4 hcap, if_neg hb]

/-- Settles O19: an initialized block admits the operation. -/
theorem parserResetKeepsTheRest : Obligations.ParserResetKeepsTheRest := fun _ _ hi => admitted_of hi _

/-! ## Outcomes (R100, R114) -/

theorem outcomeTerminal_of_ne_inProgress {o : ParserOutcome} (h : o ≠ .inProgress) : outcomeTerminal o = true := by
  cases o with
  | inProgress => exact absurd rfl h
  | success _ | checksumError | bufferOverflow => rfl

/-- Settles O20: a terminal outcome of the parser leaves it reset, and the operation returns that outcome. -/
theorem terminalOutcomesResetTheParser : Obligations.TerminalOutcomesResetTheParser := by
  intro c b s t h
  cases exec_next h with
  | frame hf => cases hf
  | @parserConsume _ _ o p hi hc ht =>
    obtain rfl : t = consumed s c p o := Host.Outcome.next.inj (h.symm.trans (exec_parserConsume_next hi hc))
    refine ⟨o, rfl, fun hne => ?_⟩
    rw [consumed_parser]
    exact consume_terminal hc (outcomeTerminal_of_ne_inProgress hne)

/-- R40's table: a parser that buffers its next byte holds at most 25 bytes, the last but one of the longest frame's. -/
theorem index_lt_of_buffers {cap : Nat} {p : ParserState} {b : Byte} (h : p.Inv cap) (hb : buffers p b) : p.index < 26 := by
  have hfit := h.indexFits
  have hlen := h.lenMax
  cases hp : p.pstate <;> simp only [ParserState.indexFits, buffers, hp] at hfit hb <;> omega

/-- A parser in a buffer of at least 26 bytes does not overflow (R114). -/
theorem consume_ne_bufferOverflow {c : Chan} {cap : Nat} {p q : ParserState} {b : Byte} {o : ParserOutcome} (h : p.Inv cap)
    (hcap : 26 ≤ cap) (hc : consume c cap p b = .ok (o, q)) : o ≠ .bufferOverflow := by
  rintro rfl
  rcases consume_cases hc with ⟨-, -, ho, -⟩ | ⟨-, -, ho, -⟩ | ⟨hb, hfull, -, -⟩ | ⟨-, -, ho, -⟩ | ⟨-, -, ho, -⟩
  case inr.inr.inl =>
    have := index_lt_of_buffers h hb
    omega
  all_goals cases ho

/-- Settles O21: the invariant gives an answer, and keeps `index` below 26 wherever a byte is buffered. -/
theorem overflowIsUnreachableAtConformingCapacity : Obligations.OverflowIsUnreachableAtConformingCapacity := by
  intro c b s hs hi hcap
  obtain ⟨o, q, hc⟩ := consume_ok (c := c) (b := b) (hs.parser c)
  exact ⟨o, _, exec_parserConsume_next hi hc, rfl, consume_ne_bufferOverflow (hs.parser c) hcap hc⟩

/-! ## Byte strings (R79, R112, R113) -/

/-- Bytes that are no sync marker leave a parser in WaitSyn as it is (R101, R113). -/
theorem noise_inProgress {c : Chan} {cap : Nat} {p : ParserState} (hp : p.pstate = .waitSyn) {noise : List Byte}
    (h : ∀ b ∈ noise, b ≠ Config.sync) : InProgress c cap noise p p := by
  induction noise with
  | nil => exact .nil p
  | cons b bs ih =>
    obtain ⟨hb, hbs⟩ := List.forall_mem_cons.1 h
    exact .cons (consume_noise hp hb) (ih hbs)

/-- Bytes that leave the parser as it is change nothing but what was returned. -/
theorem fedInProgress_parser_self (s : State) (c : Chan) (n : Nat) : fedInProgress s c (s.ch c).parser n =
    { s with returned := s.returned ++ List.replicate n (.parserConsume .inProgress) } := by
  have hsame : s.setParser c (s.ch c).parser = s := setCh_eta s c
  rw [fedInProgress, hsame]

/-- Settles O22: every byte of the noise is InProgress and leaves the parser as it is. -/
theorem noiseBeforeAFrameIsDiscarded : Obligations.NoiseBeforeAFrameIsDiscarded := by
  intro c noise bytes s hi hp hnoise
  rw [feed_inProgress (noise_inProgress hp hnoise) bytes hi rfl rfl, fedInProgress_parser_self]

/-- Settles O23: the bytes are a wire frame, whatever its header, payload and checksum byte are. -/
theorem everyFrameEndsAtItsLength : Obligations.EveryFrameEndsAtItsLength := by
  intro c hi lo cmd cs payload s hinit hw hcap hp h0 hlen
  rw [tableLen_eq_lenOf] at hlen
  rw [xorAll_eq_checksumOf]
  refine ⟨_, feed_wireBytes (f := ⟨hi, lo, payload, cs⟩) hinit hw hcap hp h0 hlen, rfl, ?_⟩
  cases c <;> exact ⟨rfl, rfl⟩

end Sys2Proof.Machine
end

section
/-! ChannelScheduler (42_scheduler.md): CH_TICK (O24 to O29), CH_RX (O31 to O35), a frame that arrives in Idle (O48), what holds of polls
and reply windows under every operation (O36 to O38), and the clock (O51). -/

namespace Sys2Proof.Machine

open Sys2Proof.Spec

/-! ## CH_TICK in the spec's words (R131 to R137) -/

theorem pollFrame_eq_poll (k : ChannelConfig) : pollFrame k = poll k := pollFrame_eq k

/-- What a tick whose answer fits makes of the state: the spec's record, sends and events of its channel, and nothing else. -/
def afterTick (c : Chan) (now : Nat) (a : Option SendResult) (s : State) : State :=
  { s.setCh c (ticked (s.cfg c) (s.ch c) now a) with
    sends := s.sends ++ Spec.tickSends c (s.cfg c) a
    diags := s.diags ++ tickDiags c (s.cfg c) (s.ch c) now a }

section Tick
variable {c : Chan} {now : Nat} {a : Option SendResult} {s t : State}

theorem afterTick_ok : afterTick c now (some .ok) s = pollSent c now s := by
  simp only [pollSent, recordSend_cfg, setCh_cfg, pollFrame_eq_poll]
  cases c <;> rfl

theorem afterTick_fail : afterTick c now (some .fail) s = pollFailed c now s := by
  simp only [pollFailed, recordSend_cfg, setCh_cfg, pollFrame_eq_poll]
  cases c <;> rfl

/-- A tick that writes back the record it found and emits nothing changes nothing. -/
theorem afterTick_eq_self (hch : ticked (s.cfg c) (s.ch c) now none = s.ch c)
    (hdiags : tickDiags c (s.cfg c) (s.ch c) now none = []) : afterTick c now none s = s := by
  rw [afterTick, hch, hdiags, setCh_eta, List.append_nil, Spec.tickSends, List.append_nil]

theorem afterTick_idle (hst : (s.ch c).schedState = .idle) : afterTick c now none s = s :=
  afterTick_eq_self (if_pos hst) (if_neg (by simp [hst]))

theorem afterTick_replyDue (hst : (s.ch c).schedState = .waitingReply) (hdue : (s.ch c).replyDeadline ≤ now) :
    afterTick c now none s = replyTimedOut c now s := by
  have hidle : (s.ch c).schedState ≠ .idle := by simp [hst]
  rw [afterTick, ticked, if_neg hidle, if_pos hdue, tickDiags, if_pos ⟨hst, hdue⟩, Spec.tickSends, List.append_nil]
  cases c <;> rfl

/-- In WaitingReply, the deadline not due, the gap decides (R136, R137). -/
theorem ticked_waiting (hst : (s.ch c).schedState = .waitingReply) (hr : now < (s.ch c).replyDeadline) :
    ticked (s.cfg c) (s.ch c) now none =
      if gapExceeded (s.cfg c) (s.ch c) now then { s.ch c with parser := resetParser (s.ch c).parser } else s.ch c := by
  have hidle : (s.ch c).schedState ≠ .idle := by simp [hst]
  rw [ticked, if_neg hidle, if_neg (Nat.not_le.2 hr), gapExceeded]
  cases (s.cfg c).gapTimeout with
  | none => rfl
  | some g => simp [cleared, resetParser]

theorem tickDiags_waiting (hr : now < (s.ch c).replyDeadline) : tickDiags c (s.cfg c) (s.ch c) now none = [] :=
  if_neg fun h => Nat.not_le.2 hr h.2

theorem afterTick_gap (hst : (s.ch c).schedState = .waitingReply) (hr : now < (s.ch c).replyDeadline)
    (hgap : gapExceeded (s.cfg c) (s.ch c) now = true) : afterTick c now none s = gapReset c s := by
  rw [afterTick, ticked_waiting hst hr, if_pos hgap, tickDiags_waiting hr, Spec.tickSends, List.append_nil, List.append_nil]
  cases c <;> rfl

theorem afterTick_waiting (hst : (s.ch c).schedState = .waitingReply) (hr : now < (s.ch c).replyDeadline)
    (hgap : gapExceeded (s.cfg c) (s.ch c) now = false) : afterTick c now none s = s :=
  afterTick_eq_self (by rw [ticked_waiting hst hr, hgap]; rfl) (tickDiags_waiting hr)

/-- A tick that is not refused had a fitting answer, and did what the spec says (R131 to R137). -/
theorem tick_eq_afterTick (h : tick c now a s = .ok t) : AnswerFits (s.ch c) now a ∧ t = afterTick c now a s := by
  rcases tick_cases h with ⟨hst, hdue, rfl, rfl⟩ | ⟨hst, hdue, rfl, rfl⟩ | ⟨hst, hdue, rfl, rfl⟩ | ⟨hst, hdue, rfl, rfl⟩ |
    ⟨hst, hdue, hgap, rfl, rfl⟩ | ⟨hst, hdue, hgap, rfl, rfl⟩ <;> refine ⟨by simp [AnswerFits, Due, hst, hdue], ?_⟩
  · exact afterTick_ok.symm
  · exact afterTick_fail.symm
  · exact (afterTick_idle hst).symm
  · exact (afterTick_replyDue hst hdue).symm
  · exact (afterTick_gap hst hdue hgap).symm
  · exact (afterTick_waiting hst hdue hgap).symm

/-- A tick is not refused exactly when its answer fits, and does what the spec says (R84, R131 to R137). -/
theorem tick_ok_iff : tick c now a s = .ok t ↔ AnswerFits (s.ch c) now a ∧ t = afterTick c now a s := by
  refine ⟨tick_eq_afterTick, fun ⟨hfit, ht⟩ => ?_⟩
  obtain ⟨u, hu⟩ : ∃ u, tick c now a s = .ok u := by
    cases a with
    | none => exact ⟨_, (tick_notDue (fun hd => hfit.2 hd rfl) .ok).2⟩
    | some r =>
      obtain ⟨hst, hdue⟩ := hfit.1 nofun
      exact ⟨_, (tick_due hst hdue r).2⟩
  rw [ht, hu, (tick_eq_afterTick hu).2]

theorem exec_chTick (hi : s.initialized = true) (hfit : AnswerFits (s.ch c) now a) :
    exec (.chTick c now a) s = .next (afterTick c now a s) :=
  (admitted_of hi _).trans (ofRefusal_next.2 (tick_ok_iff.2 ⟨hfit, rfl⟩))

/-- A tick that makes no send answers, and takes no answer (R84, R134 to R137). -/
theorem exec_chTick_notDue (hi : s.initialized = true) (hd : ¬ Due (s.ch c) now) :
    exec (.chTick c now none) s = .next (afterTick c now none s) ∧
      ∀ r, exec (.chTick c now (some r)) s = .refused (.answerUnexpected c) := by
  refine ⟨exec_chTick hi ⟨fun h => absurd rfl h, fun h => absurd h hd⟩, fun r => ?_⟩
  rw [exec, execChTick, admitted_of hi, (tick_notDue hd r).1]
  rfl

theorem not_due_of_waiting (hst : (s.ch c).schedState = .waitingReply) : ¬ Due (s.ch c) now := fun h =>
  nomatch hst.symm.trans h.1

end Tick

/-- Settles O24: the poll is due, so the answer fits. -/
theorem duePollIsSent : Obligations.DuePollIsSent := fun _ _ _ hi _ hst hdue =>
  exec_chTick hi ⟨fun _ => ⟨hst, hdue⟩, fun _ => nofun⟩

/-- Settles O25: the poll is due, so the answer fits. -/
theorem failedPollIsRetriedAnIntervalLater : Obligations.FailedPollIsRetriedAnIntervalLater := fun _ _ _ hi _ hst hdue =>
  exec_chTick hi ⟨fun _ => ⟨hst, hdue⟩, fun _ => nofun⟩

/-- Settles O26: the poll is not due. -/
theorem pollNotDueDoesNothing : Obligations.PollNotDueDoesNothing := fun c now s hi hst hlt => by
  have h := exec_chTick_notDue (c := c) (now := now) hi fun hd => Nat.not_le.2 hlt hd.2
  rwa [afterTick_idle hst] at h

/-- Settles O27: a channel that waits makes no send, and its deadline is due. -/
theorem replyTimeoutReturnsToIdle : Obligations.ReplyTimeoutReturnsToIdle := fun c now s hi hst hdue => by
  rw [(exec_chTick_notDue hi (not_due_of_waiting hst)).1, afterTick_replyDue hst hdue]
  cases c <;> rfl

/-- Settles O28: a channel that waits makes no send, and its gap is exceeded. -/
theorem gapResetsTheParserOnly : Obligations.GapResetsTheParserOnly := fun c now g s hi hst hr hg hindex hgap => by
  rw [(exec_chTick_notDue hi (not_due_of_waiting hst)).1, afterTick_gap hst hr ((gapExceeded_iff ..).2 ⟨g, hg, hindex, hgap⟩)]
  rfl

/-- Settles O29: a channel that waits makes no send, and neither its deadline nor its gap is due. -/
theorem waitingWithNothingDueDoesNothing : Obligations.WaitingWithNothingDueDoesNothing := fun c now s hi hst hr hgap => by
  have h := exec_chTick_notDue (c := c) (now := now) hi (not_due_of_waiting hst)
  rwa [afterTick_waiting hst hr (Bool.eq_false_iff.2 (mt (gapExceeded_iff ..).1 hgap))] at h

/-! ## CH_RX (R140 to R146) -/

section Rx
variable {c : Chan} {b : Byte} {now : Nat} {o : ParserOutcome} {p : ParserState} {s : State}

theorem exec_chRx_idle (hi : s.initialized = true) (hst : (s.ch c).schedState = .idle) : exec (.chRx c b now) s = .next s := by
  rw [exec, execChRx, admitted_of hi, rxByte, hst]
  rfl

/-- PARSER_CONSUME shows what the parser makes of a byte (R100). -/
theorem consume_of_exec_parserConsume (h : exec (.parserConsume c b) s = .next (consumed s c p o)) :
    consume c s.capacity (s.ch c).parser b = .ok (o, p) := by
  cases exec_next h with
  | frame hf => cases hf
  | @parserConsume _ _ o' p' hi hc ht =>
    have hp : p = p' := by simpa using congrArg (fun t => (t.ch c).parser) ht
    have ho : o = o' := by simpa [consumed, State.setParser] using congrArg State.returned ht
    rw [hc, hp, ho]

/-- In WaitingReply a byte does to the parser what PARSER_CONSUME does, and the scheduler acts on the outcome (R141). -/
theorem exec_chRx_waiting (hi : s.initialized = true) (hst : (s.ch c).schedState = .waitingReply)
    (h : exec (.parserConsume c b) s = .next (consumed s c p o)) : exec (.chRx c b now) s =
      .next (onOutcome c now o (s.setCh c { s.ch c with lastRxTime := now, parser := p })) := by
  rw [exec, execChRx, admitted_of hi, rxByte_forward hst (consume_of_exec_parserConsume h)]
  rfl

/-- A byte the parser does not compare with a checksum is InProgress where there is room (R101 to R105). -/
theorem exec_parserConsume_inProgress (hi : s.initialized = true) (hp : (s.ch c).parser.pstate ≠ .waitChecksum)
    (hroom : (s.ch c).parser.index < s.capacity) : ∃ p, exec (.parserConsume c b) s = .next (consumed s c p .inProgress) := by
  by_cases hb : buffers (s.ch c).parser b
  · exact ⟨_, exec_parserConsume_push hi hb hroom⟩
  · obtain ⟨hsyn, hnoise⟩ : (s.ch c).parser.pstate = .waitSyn ∧ b ≠ Config.sync := by
      simpa [buffers_iff, hp] using hb
    exact ⟨_, exec_parserConsume_next hi (consume_noise hsyn hnoise)⟩

end Rx

/-- Settles O31: a byte never reaches the parser of an Idle channel. -/
theorem bytesInIdleAreDiscarded : Obligations.BytesInIdleAreDiscarded := fun _ _ _ _ => exec_chRx_idle

/-- Settles O32: the scheduler does nothing about InProgress. -/
theorem forwardedByteInProgress : Obligations.ForwardedByteInProgress := fun _ _ _ _ hi hst =>
  ⟨fun _ h => exec_chRx_waiting hi hst h, fun hp hroom =>
    have ⟨p, h⟩ := exec_parserConsume_inProgress hi hp hroom
    ⟨p, h, exec_chRx_waiting hi hst h⟩⟩

/-- Settles O33: the checksum byte matches, so the outcome is Success. -/
theorem successEndsTheWindow : Obligations.SuccessEndsTheWindow := fun c b now s hi hst hp h4 hcap hb => by
  have h := exec_parserConsume_checksum b hi hp h4 hcap
  rw [if_pos hb] at h
  rw [exec_chRx_waiting hi hst h]
  cases c <;> rfl

/-- Settles O34: the checksum byte does not match, so the outcome is ChecksumError. -/
theorem checksumErrorEndsTheWindow : Obligations.ChecksumErrorEndsTheWindow := fun c b now s hi hst hp h4 hcap hb => by
  have h := exec_parserConsume_checksum b hi hp h4 hcap
  rw [if_neg hb] at h
  rw [exec_chRx_waiting hi hst h]
  cases c <;> rfl

/-- Settles O35: the byte is one the parser buffers and there is no room, so the outcome is BufferOverflow. -/
theorem bufferOverflowEndsTheWindow : Obligations.BufferOverflowEndsTheWindow := fun c b now s hi hst hfull hp hsync => by
  rw [exec_chRx_waiting hi hst (exec_parserConsume_overflow hi (buffers_iff.2 ⟨hp, hsync⟩) hfull)]
  cases c <;> rfl

/-- Settles O48: a frame row is an RX line, and in Idle an RX line is discarded. -/
theorem framesInIdleAreDiscarded : Obligations.FramesInIdleAreDiscarded := fun cmd c now f s hi hst => by
  rw [exec_frameRow, admitted_of hi, rxBytes_idle hst]
  rfl

/-! ## Polls (R138) -/

/-- What an operation at `now` may send on its own account: the poll of a channel whose poll is due (R132, R133). -/
def DuePoll (s : State) (now : Nat) (x : SendRecord) : Prop := Due (s.ch x.chan) now ∧ x.bytes = poll (s.cfg x.chan)

/-- The sends of a tick are its channel's, and the poll of that channel, which was due (R132, R133). -/
theorem tickSends_duePoll {c : Chan} {now : Nat} {a : Option SendResult} {s : State} (hfit : AnswerFits (s.ch c) now a) :
    ∀ x ∈ Spec.tickSends c (s.cfg c) a, x.chan = c ∧ DuePoll s now x := by
  intro x hx
  cases a with
  | none => cases hx
  | some r =>
    obtain rfl := List.mem_singleton.1 hx
    exact ⟨rfl, hfit.1 nofun, rfl⟩

section Sends
variable {c : Chan} {now : Nat} {s t : State}

/-- Received bytes send nothing (R141 to R146). -/
theorem rxByte_sends {b : Byte} (h : rxByte c b now s = .ok t) : t.sends = s.sends := by
  rcases rxByte_cases h with ⟨-, rfl⟩ | ⟨-, o, p, -, rfl⟩
  · rfl
  · cases o <;> simp [onOutcome, State.toIdle]

theorem rxBytes_sends {bs : List Byte} (h : rxBytes c now bs s = .ok t) : t.sends = s.sends :=
  rxBytes_induct (P := fun s t => t.sends = s.sends) (fun _ => rfl) (fun _ _ _ h g => g.trans h) (fun _ _ _ => rxByte_sends) bs h

/-- ORCH_TICK's second tick finds its channel as the first tick found it, so it sends what it would send alone (R162). -/
theorem tickBoth_sends {a0 a1 : Option SendResult} {u : State} (h0 : tick .ch0 now a0 s = .ok u) (h1 : tick .ch1 now a1 u = .ok t) :
    t.sends = s.sends ++ (Spec.tickSends .ch0 (s.cfg .ch0) a0 ++ Spec.tickSends .ch1 (s.cfg .ch1) a1) ∧
      AnswerFits (s.ch .ch0) now a0 ∧ AnswerFits (s.ch .ch1) now a1 := by
  have hother := tick_onChannel h0
  obtain ⟨hfit0, hu⟩ := tick_eq_afterTick h0
  obtain ⟨hfit1, ht⟩ := tick_eq_afterTick h1
  rw [hother.other .ch1 nofun] at hfit1
  refine ⟨?_, hfit0, hfit1⟩
  calc t.sends = u.sends ++ Spec.tickSends .ch1 (u.cfg .ch1) a1 := by rw [ht]; rfl
    _ = s.sends ++ Spec.tickSends .ch0 (s.cfg .ch0) a0 ++ Spec.tickSends .ch1 (s.cfg .ch1) a1 := by rw [hother.cfg, hu]; rfl
    _ = _ := List.append_assoc ..

end Sends

/-- Settles O36: a tick sends the due poll of its channel, and no other operation but SEND_COMMAND sends anything. -/
theorem pollsGoOutOnlyFromIdle : Obligations.PollsGoOutOnlyFromIdle := by
  intro i s t hne h
  cases exec_next h with
  | chTick _ htick =>
    obtain ⟨hfit, rfl⟩ := tick_eq_afterTick htick
    refine ⟨_, rfl, fun x hx => ?_⟩
    obtain ⟨rfl, ⟨hidle, hdue⟩, hbytes⟩ := tickSends_duePoll hfit x hx
    exact ⟨hidle, hbytes, _, hdue, .inr ⟨_, rfl⟩⟩
  | orchTick _ h0 h1 =>
    obtain ⟨hsends, hfit0, hfit1⟩ := tickBoth_sends h0 h1
    refine ⟨_, hsends, fun x hx => ?_⟩
    obtain ⟨⟨hidle, hdue⟩, hbytes⟩ : DuePoll s _ x :=
      (List.mem_append.1 hx).elim (fun hx => (tickSends_duePoll hfit0 x hx).2) (fun hx => (tickSends_duePoll hfit1 x hx).2)
    exact ⟨hidle, hbytes, _, hdue, .inl ⟨_, _, rfl⟩⟩
  | sendCommand => exact absurd rfl (hne _ _ _ _ _)
  | frame _ _ hrx => exact ⟨[], by simp [rxBytes_sends hrx], nofun⟩
  | chRx _ hrx => exact ⟨[], by simp [rxByte_sends hrx], nofun⟩
  | initRejected _ _ ht | initOk _ _ ht | buildFrame ht | checksum ht | parserConsume _ _ ht | parserReset _ ht =>
    exact ⟨[], by simp [ht, initState, State.setParser], nofun⟩

/-! ## Reply windows (R138, R147, R148) -/

/-- One event was emitted on the channel, and it is one that ends a reply window (R138). -/
def WindowClosed (c : Chan) (s t : State) : Prop := ∃ ev, Closing ev ∧ diagsOf t c = diagsOf s c ++ [⟨c, ev⟩]

/-- What received bytes do to a channel's reply window: in Idle there is none, and an open one stays open with no event or is closed. -/
inductive RxWindow (c : Chan) (s t : State) : Prop where
  | none (hs : (s.ch c).schedState = .idle) (ht : t = s)
  | kept (hs : (s.ch c).schedState = .waitingReply) (ht : (t.ch c).schedState = .waitingReply) (hd : diagsOf t c = diagsOf s c)
  | closed (hs : (s.ch c).schedState = .waitingReply) (ht : (t.ch c).schedState = .idle) (h : WindowClosed c s t)

section Windows
variable {c : Chan} {now : Nat} {s t u : State}

/-- An operation on another channel emits nothing on this one (R43). -/
theorem diagsOf_other {d : Chan} (h : OnChannel c s t) (hd : d ≠ c) : diagsOf t d = diagsOf s d := filter_append_other hd h.diags

theorem rxWindow_refl (s : State) : RxWindow c s s := by
  cases hst : (s.ch c).schedState with
  | idle => exact .none hst rfl
  | waitingReply => exact .kept hst hst rfl

/-- Once bytes have closed the window, the bytes after them are discarded (R146). -/
theorem rxWindow_trans (h : RxWindow c s t) (g : RxWindow c t u) : RxWindow c s u := by
  cases h with
  | none hs ht => exact ht ▸ g
  | kept hs ht hd =>
    cases g with
    | none ht' => cases ht.symm.trans ht'
    | kept _ hu hd' => exact .kept hs hu (hd'.trans hd)
    | closed _ hu hclosed => exact .closed hs hu (by rwa [WindowClosed, hd] at hclosed)
  | closed hs ht hclosed =>
    cases g with
    | none _ hu => exact hu ▸ .closed hs ht hclosed
    | kept ht' | closed ht' => cases ht.symm.trans ht'

/-- The return to Idle with one closing event closes the window (R143 to R145). -/
theorem rxWindow_emitDiag_toIdle (hst : (s.ch c).schedState = .waitingReply) (hd : t.diags = s.diags) {ev : DiagEvent} (hev : Closing ev) :
    RxWindow c s ((t.emitDiag c ev).toIdle c now) :=
  .closed hst (by simp) ⟨ev, hev, by simp [diagsOf, State.toIdle, hd]⟩

/-- InProgress emits nothing and keeps the window; the terminal outcomes close it (R142 to R145). -/
theorem rxByte_window {b : Byte} (h : rxByte c b now s = .ok t) : RxWindow c s t := by
  rcases rxByte_cases h with ⟨hst, rfl⟩ | ⟨hst, o, p, -, rfl⟩
  · exact .none hst rfl
  · cases o with
    | inProgress => exact .kept hst (by simpa [onOutcome] using hst) (by simp [diagsOf, onOutcome])
    | success | checksumError | bufferOverflow => exact rxWindow_emitDiag_toIdle hst (by simp) trivial

theorem rxBytes_window {bs : List Byte} (h : rxBytes c now bs s = .ok t) : RxWindow c s t :=
  rxBytes_induct rxWindow_refl (fun _ _ _ => rxWindow_trans) (fun _ _ _ => rxByte_window) bs h

section Closes
variable (hst : (s.ch c).schedState = .waitingReply) (ht : (t.ch c).schedState = .idle)
include hst ht

theorem rxWindow_closes (h : RxWindow c s t) : WindowClosed c s t := by
  cases h with
  | none hs => cases hst.symm.trans hs
  | kept _ ht' => cases ht.symm.trans ht'
  | closed _ _ hclosed => exact hclosed

/-- A tick closes a window by its reply timeout alone (R135): the others start in Idle or leave the channel waiting. -/
theorem tick_closes {a : Option SendResult} (h : tick c now a s = .ok t) : WindowClosed c s t := by
  rcases tick_cases h with ⟨hs, -⟩ | ⟨hs, -⟩ | ⟨hs, -⟩ | ⟨-, -, -, rfl⟩ | ⟨-, -, -, -, rfl⟩ | ⟨-, -, -, -, rfl⟩
  case inr.inr.inr.inl =>
    exact ⟨.replyTimeout, trivial, by simp [diagsOf, replyTimedOut, State.toIdle, State.setParser]⟩
  all_goals simp_all

/-- Of ORCH_TICK's two ticks the one of another channel leaves the record and the events of this one (R162). -/
theorem tickBoth_closes {a0 a1 : Option SendResult} (h0 : tick .ch0 now a0 s = .ok u) (h1 : tick .ch1 now a1 u = .ok t) :
    WindowClosed c s t := by
  have on0 := tick_onChannel h0
  have on1 := tick_onChannel h1
  cases c with
  | ch0 =>
    rw [on1.other .ch0 nofun] at ht
    rw [WindowClosed, diagsOf_other (d := .ch0) on1 nofun]
    exact tick_closes hst ht h0
  | ch1 =>
    rw [← on0.other .ch1 nofun] at hst
    rw [WindowClosed, ← diagsOf_other (d := .ch1) on0 nofun]
    exact tick_closes hst ht h1

end Closes
end Windows

/-- Settles O37: an operation that closes a channel's window acts on that channel, and is a tick or receives bytes. -/
theorem eachWindowEndsInExactlyOneWay : Obligations.EachWindowEndsInExactlyOneWay := by
  intro i s t c hi h hst ht
  have hchanged : t.ch c ≠ s.ch c := fun e => by
    rw [e, hst] at ht
    cases ht
  have hchan {d : Chan} (hd : chanOf i = some d) : c = d := by_contra fun hne => hchanged ((exec_onChannel hd h).other c hne)
  cases exec_next h with
  | frame hf _ hrx =>
    cases hchan (chanOf_frame hf)
    exact rxWindow_closes hst ht (rxBytes_window hrx)
  | chRx _ hrx =>
    cases hchan rfl
    exact rxWindow_closes hst ht (rxByte_window hrx)
  | chTick _ htick =>
    cases hchan rfl
    exact tick_closes hst ht htick
  | orchTick _ h0 h1 => exact tickBoth_closes hst ht h0 h1
  | initRejected hi' | initOk hi' => cases hi.symm.trans hi'
  | sendCommand _ hsend => exact absurd (send_ch hsend c) hchanged
  | buildFrame e | checksum e => exact absurd (by simp [e]) hchanged
  | parserConsume _ _ e | parserReset _ e =>
    cases hchan rfl
    simp [e, hst] at ht

/-- Settles O38: the tick times the window out, and what it leaves is an Idle channel whose poll is due an interval later. -/
theorem pollCyclesAreBounded : Obligations.PollCyclesAreBounded := by
  intro c now s hi hst hdue
  have hexec := (exec_chTick_notDue (now := now) hi (not_due_of_waiting hst)).1
  rw [afterTick_replyDue hst hdue] at hexec
  have hkept := exec_onChannel rfl hexec
  have hit : (replyTimedOut c now s).initialized = true := hkept.initialized.trans hi
  have hcfg : (replyTimedOut c now s).cfg c = s.cfg c := hkept.cfg c
  have hidle : ((replyTimedOut c now s).ch c).schedState = .idle := by simp
  have hnext : ((replyTimedOut c now s).ch c).nextPollDeadline = now + (s.cfg c).pollInterval := by simp
  refine ⟨_, hexec, hidle, fun b time => bytesInIdleAreDiscarded c b time _ hit hidle,
    fun now' hlt => (pollNotDueDoesNothing c now' _ hit hidle (hnext ▸ hlt)).1, fun now' r hle => ?_⟩
  refine ⟨_, exec_chTick hit ⟨fun _ => ⟨hidle, hnext ▸ hle⟩, fun _ => nofun⟩, ?_⟩
  rw [← hcfg]
  rfl

/-! ## The clock (R130, R212; log entry 12) -/

section Clock
variable {c : Chan} {now : Nat} {s t : State}

/-- A tick writes no `last_rx_time` (R39, R44). -/
theorem tick_lastRxTime {a : Option SendResult} (h : tick c now a s = .ok t) (d : Chan) : (t.ch d).lastRxTime = (s.ch d).lastRxTime := by
  by_cases hd : d = c
  · exact hd ▸ (tick_writes h).lastRxTime
  · rw [(tick_onChannel h).other d hd]

/-- A received byte leaves a `last_rx_time` or writes its own time there (R39, R141). -/
theorem rxByte_lastRxTime {b : Byte} (h : rxByte c b now s = .ok t) (d : Chan) :
    (t.ch d).lastRxTime = (s.ch d).lastRxTime ∨ (t.ch d).lastRxTime = now := by
  by_cases hd : d = c
  · subst hd
    rcases rxByte_cases h with ⟨-, rfl⟩ | ⟨-, o, p, -, rfl⟩
    · exact .inl rfl
    · rw [onOutcome_ch_self]
      split <;> exact .inr (by simp)
  · exact .inl (by rw [(rxByte_onChannel h).other d hd])

theorem rxBytes_lastRxTime {bs : List Byte} (h : rxBytes c now bs s = .ok t) (d : Chan) :
    (t.ch d).lastRxTime = (s.ch d).lastRxTime ∨ (t.ch d).lastRxTime = now :=
  rxBytes_induct (P := fun s t => (t.ch d).lastRxTime = (s.ch d).lastRxTime ∨ (t.ch d).lastRxTime = now) (fun _ => .inl rfl)
    (fun _ _ _ h g => g.elim (fun e => e ▸ h) .inr) (fun _ _ _ h => rxByte_lastRxTime h d) bs h

theorem setParser_lastRxTime (s : State) (c d : Chan) (p : ParserState) :
    ((s.setParser c p).ch d).lastRxTime = (s.ch d).lastRxTime := by
  cases c <;> cases d <;> rfl

end Clock

theorem timeOf_frame {i : Instr} {cmd : Byte} {c : Chan} {now : Nat} {f : WireFrame} (h : frameOf i = some (cmd, c, now, f)) :
    timeOf i = some now := by
  cases i <;> simp_all [frameOf, timeOf]

/-- No operation raises a `last_rx_time` but to its own time (R39, R46, R141). -/
theorem exec_lastRxTime {i : Instr} {s t : State} (h : exec i s = .next t) (d : Chan) :
    (t.ch d).lastRxTime ≤ (s.ch d).lastRxTime ∨ timeOf i = some (t.ch d).lastRxTime := by
  cases exec_next h with
  | frame hf _ hrx => exact (rxBytes_lastRxTime hrx d).imp Nat.le_of_eq fun e => (timeOf_frame hf).trans (congrArg some e.symm)
  | chRx _ hrx => exact (rxByte_lastRxTime hrx d).imp Nat.le_of_eq fun e => congrArg some e.symm
  | orchTick _ h0 h1 => exact .inl (Nat.le_of_eq ((tick_lastRxTime h1 d).trans (tick_lastRxTime h0 d)))
  | chTick _ htick => exact .inl (Nat.le_of_eq (tick_lastRxTime htick d))
  | initOk _ _ ht => exact .inl (by cases d <;> exact ht ▸ Nat.zero_le _)
  | sendCommand _ hsend => exact .inl (by rw [send_ch hsend])
  | initRejected _ _ ht | buildFrame ht | checksum ht | parserConsume _ _ ht | parserReset _ ht =>
    exact .inl (by simp [ht, setParser_lastRxTime])

/-- Settles O51: an operation runs at the clock the step sets, and a byte it receives is received then. -/
theorem theClockNeverGoesBack : Obligations.TheClockNeverGoesBack := by
  intro s t hpast h
  obtain ⟨i, rest, n, hdec, hclock, hexec⟩ := step_next h
  have hn : t.clock = n := (exec_keeps_capacity_script_clock hexec).2.2
  have hle : s.clock ≤ n := (clockAfter_ok hclock).elim (fun h => h.2.ge) (·.2)
  have htimed {now : Nat} (ht : timeOf i = some now) : now = n := by
    rcases clockAfter_ok hclock with ⟨hnow, -⟩ | ⟨hnow, -⟩ <;> rw [nowOf_eq_timeOf, ht] at hnow <;> cases hnow
    rfl
  refine ⟨hn ▸ hle, fun c => hn ▸ ?_, fun i' rest' now hdec' ht => ?_⟩
  · rcases exec_lastRxTime hexec c with hlast | hlast
    · exact hlast.trans ((hpast c).trans hle)
    · exact (htimed hlast).le
  · cases hdec.symm.trans hdec'
    rw [hn, htimed ht]
    exact ⟨rfl, fun c => (hpast c).trans hle⟩

end Sys2Proof.Machine
end

section
/-! Orchestrator (43_orchestrator.md): admission (O41), the configurations INIT rejects (O40), ORCH_TICK (O43) and SEND_COMMAND (O44). -/

namespace Sys2Proof.Machine

open Sys2Proof.Spec

/-! ## INIT (R160) -/

section Init
variable {k k0 k1 : ChannelConfig} {s : State}

/-- The address is checked first (R160). -/
theorem configFault_badAddress (h : ¬ AddressOk k) : configFault k = some .stationAddress := by
  have hbad : addressLegal k.stationAddr.toNat = false := by
    rw [← Bool.not_eq_true, addressLegal_iff]
    exact h
  exact if_pos hbad

/-- With a legal address, the gap threshold is checked next (R25, R160). -/
theorem configFault_badGap (ha : AddressOk k) (hg : ¬ GapOk k) : configFault k = some .gapNotBelowTimeout := by
  obtain ⟨g, hgap, hle⟩ : ∃ g, k.gapTimeout = some g ∧ k.replyTimeout ≤ g := by simpa [GapOk] using hg
  rw [configFault, (addressLegal_iff _).2 ha, hgap]
  exact if_pos hle

theorem initFault_ch0 {r : ConfigReason} (h : configFault k0 = some r) : initFault k0 k1 = some (.ch0, r) := by
  rw [initFault, h]

theorem initFault_ch1 {r : ConfigReason} (h0 : configFault k0 = none) (h1 : configFault k1 = some r) :
    initFault k0 k1 = some (.ch1, r) := by
  rw [initFault, h0, h1]

/-- INIT with a fault returns it and writes nothing (R160). -/
theorem exec_init_rejected {c : Chan} {r : ConfigReason} (hi : s.initialized = false) (h : initFault k0 k1 = some (c, r)) :
    exec (.init k0 k1) s = .next { s with returned := s.returned ++ [.init (.configRejected c r)] } := by
  rw [exec, execInit, if_neg (by simp [hi]), h]
  rfl

/-- INIT answers before INIT, whatever it finds (R161). -/
theorem exec_init_answers (hi : s.initialized = false) : ∃ t, exec (.init k0 k1) s = .next t := by
  cases h : initFault k0 k1 with
  | some fault => exact ⟨_, exec_init_rejected hi h⟩
  | none =>
    rw [exec, execInit, if_neg (by simp [hi]), h]
    exact ⟨_, rfl⟩

theorem exec_init_again (hi : s.initialized = true) : exec (.init k0 k1) s = .refused .alreadyInitialized := if_pos hi

end Init

/-- Settles O40: by the first check that fails. -/
theorem initRejectsBadConfigurations : Obligations.InitRejectsBadConfigurations := by
  intro k0 k1 s hi
  have noFault {k : ChannelConfig} (ha : AddressOk k) (hg : GapOk k) : configFault k = none := (configFault_eq_none_iff k).2 ⟨ha, hg⟩
  refine ⟨fun ha0 => ?_, fun ha0 hg0 => ?_, fun ha0 hg0 ha1 => ?_, fun ha0 hg0 ha1 hg1 => ?_⟩ <;> apply exec_init_rejected hi
  · exact initFault_ch0 (configFault_badAddress ha0)
  · exact initFault_ch0 (configFault_badGap ha0 hg0)
  · exact initFault_ch1 (noFault ha0 hg0) (configFault_badAddress ha1)
  · exact initFault_ch1 (noFault ha0 hg0) (configFault_badGap ha1 hg1)

/-! ## Admission (R84, R161) -/

/-- Every operation but INIT, CHECKSUM and BUILD_FRAME passes admission first (R161). -/
theorem exec_admitted {i : Instr} (h : ¬ NeedsNoInit i) (s : State) : ∃ o, exec i s = admitted s o := by
  cases i using rowCases with
  | frame hf => exact ⟨_, exec_frame hf s⟩
  | orchTick | chTick | chRx | sendCommand | parserConsume | parserReset => exact ⟨_, rfl⟩
  | init | buildFrame | checksum => exact absurd trivial h

theorem admitted_beforeInit {s : State} (h : s.initialized = false) (o : Host.Outcome State Fault Refusal) :
    admitted s o = .refused .beforeInit := by
  rw [admitted, h]
  rfl

/-- The operations that need no INIT answer before it (R161). -/
theorem exec_needsNoInit {i : Instr} {s : State} (hi : s.initialized = false) (h : NeedsNoInit i) : ∃ t, exec i s = .next t :=
  match i, h with
  | .init _ _, _ => exec_init_answers hi
  | .buildFrame _ _ _ _, _ => ⟨_, rfl⟩
  | .checksum _, _ => ⟨_, rfl⟩

/-- Settles O41: admission refuses, and the three operations that do not pass it answer. -/
theorem admissionFollowsInit : Obligations.AdmissionFollowsInit := by
  refine ⟨fun i s hi h => ?_, fun i s => exec_needsNoInit, fun k0 k1 s => exec_init_again⟩
  obtain ⟨o, ho⟩ := exec_admitted h s
  rw [ho, admitted_beforeInit hi]

/-! ## ORCH_TICK (R162, R163) -/

/-- ORCH_TICK is not refused exactly when both answers fit the state before it, and is then both ticks (R84, R162). -/
theorem tickBoth_ok_iff {now : Nat} {a0 a1 : Option SendResult} {s t : State} :
    tickBoth now a0 a1 s = .ok t ↔
      (AnswerFits s.ch0 now a0 ∧ AnswerFits s.ch1 now a1) ∧ t = afterTick .ch1 now a1 (afterTick .ch0 now a0 s) := by
  rw [tickBoth_ok]
  constructor
  · rintro ⟨u, h0, h1⟩
    obtain ⟨hfit0, rfl⟩ := tick_ok_iff.1 h0
    obtain ⟨hfit1, rfl⟩ := tick_ok_iff.1 h1
    exact ⟨⟨hfit0, hfit1⟩, rfl⟩
  · rintro ⟨⟨hfit0, hfit1⟩, rfl⟩
    exact ⟨_, tick_ok_iff.2 ⟨hfit0, rfl⟩, tick_ok_iff.2 ⟨hfit1, rfl⟩⟩

/-- Settles O43: the second tick finds its channel as the first tick found it, and an answer that does not fit leaves no next state. -/
theorem orchTickTicksBothChannels : Obligations.OrchTickTicksBothChannels := by
  intro now a0 a1 s hi _ _
  have hexec : exec (.orchTick now a0 a1) s = ofRefusal (tickBoth now a0 a1 s) := admitted_of hi _
  rw [hexec]
  refine ⟨fun hfit0 hfit1 => ofRefusal_next.2 (tickBoth_ok_iff.2 ⟨⟨hfit0, hfit1⟩, rfl⟩), fun hfit => ?_⟩
  cases h : tickBoth now a0 a1 s with
  | ok t => exact absurd (tickBoth_ok_iff.1 h).1 hfit
  | error r => exact ⟨r, rfl⟩

/-! ## SEND_COMMAND (R164) -/

section SendCommand
variable {c : Chan} {addr : Nat} {cmd : Byte} {payload : List Byte} {s : State}

/-- A valid command is built in the transmit buffer and sent (R164). -/
theorem exec_sendCommand_valid (hi : s.initialized = true) (h : validate addr payload.length Config.txBufSize = none) (x : SendResult) :
    exec (.sendCommand c addr cmd payload (some x)) s = .next (commandSent c (frame addr cmd payload) x
      { s with txBuf := s.txBuf.writeBytes 0 (frame addr cmd payload) }) := by
  have hbuilt : (buildInto addr cmd payload Config.txBufSize s.txBuf).2 = s.txBuf.writeBytes 0 (frame addr cmd payload) := by
    rw [buildInto, h, frame_eq_frameBytes]
  simp only [exec, execSendCommand, admitted_of hi, send, h, hbuilt, ← frame_eq_frameBytes]
  rfl

/-- An invalid command: the reason is returned, nothing is sent (R164). -/
theorem exec_sendCommand_invalid (hi : s.initialized = true) {r : ValidationReason}
    (h : validate addr payload.length Config.txBufSize = some r) :
    exec (.sendCommand c addr cmd payload none) s =
      .next { s with returned := s.returned ++ [.sendCommand (.validationError r)] } := by
  simp only [exec, execSendCommand, admitted_of hi, send, h]
  rfl

end SendCommand

/-- Settles O44: by what the checks of the arguments find. -/
theorem sendCommandSendsOneFrame : Obligations.SendCommandSendsOneFrame := by
  intro c addr cmd payload s hi
  refine ⟨fun ha hlen hw => ?_, fun hbad => ?_, fun ha hlong => ?_⟩
  · have hvalid := exec_sendCommand_valid (c := c) (cmd := cmd) hi (validate_txBuf_eq_none_iff.2 ⟨ha, hlen⟩)
    exact ⟨_, wroteFrame_writeBytes hw _, hvalid .ok, hvalid .fail⟩
  · exact exec_sendCommand_invalid hi (validate_badAddress (by omega))
  · exact exec_sendCommand_invalid hi (by rw [validate_legalAddress ha, if_pos hlong])

end Sys2Proof.Machine
end

section
/-! Errors and exceptions (60_exceptions.md): the block has no traps, so from a state that meets the invariant nothing faults and after INIT
no input stops it (O52). -/

namespace Sys2Proof.Machine

open Sys2Proof.Spec

/-! ## Receiving never faults (R50, R173) -/

section Receiving
variable {c : Chan} {s : State}

/-- A byte is discarded in Idle and answered by the parser in WaitingReply (R140, R146). -/
theorem rxByte_answers (hs : s.Inv) (b : Byte) (now : Nat) : ∃ t, rxByte c b now s = .ok t := by
  cases hst : (s.ch c).schedState with
  | idle => exact ⟨s, by rw [rxByte, hst]⟩
  | waitingReply =>
    obtain ⟨o, p, hc⟩ := consume_ok (c := c) (b := b) (hs.parser c)
    exact ⟨_, rxByte_forward hst hc⟩

/-- Each byte of an RX line finds the invariant its predecessors kept (R85). -/
theorem rxBytes_answers (hs : s.Inv) (now : Nat) (bs : List Byte) : ∃ t, rxBytes c now bs s = .ok t := by
  induction bs generalizing s with
  | nil => exact ⟨s, rfl⟩
  | cons b bs ih =>
    obtain ⟨u, hu⟩ := rxByte_answers (c := c) hs b now
    rw [rxBytes, hu]
    exact ih (rxByte_inv hs hu)

end Receiving

/-! ## No operation faults (R170, R173) -/

section NoFault
variable {s : State}

theorem ofRefusal_ne_fault (x : Except Refusal State) (f : Fault) : ofRefusal x ≠ .fault f := by
  cases x <;> exact nofun

theorem ofFault_ne_fault {x : Except Fault State} (h : ∃ t, x = .ok t) (f : Fault) : ofFault x ≠ .fault f := by
  obtain ⟨t, rfl⟩ := h
  exact nofun

/-- Admission adds a refusal, never a fault (R161). -/
theorem admitted_ne_fault {o : Host.Outcome State Fault Refusal} {f : Fault} (h : o ≠ .fault f) : admitted s o ≠ .fault f := by
  unfold admitted
  split
  · exact h
  · exact nofun

/-- INIT answers before INIT and is refused after it (R84, R160). -/
theorem exec_init_ne_fault (k0 k1 : ChannelConfig) (f : Fault) : exec (.init k0 k1) s ≠ .fault f := by
  cases hi : s.initialized with
  | false =>
    obtain ⟨t, ht⟩ := exec_init_answers (k0 := k0) (k1 := k1) hi
    rw [ht]
    exact nofun
  | true =>
    rw [exec_init_again hi]
    exact nofun

/-- Only the parser's reads can fault, and under the invariant they do not (R50, R173). -/
theorem exec_ne_fault (hs : s.Inv) (i : Instr) (f : Fault) : exec i s ≠ .fault f := by
  cases i using rowCases with
  | frame hf =>
    rw [exec_frame hf]
    exact admitted_ne_fault (ofFault_ne_fault (rxBytes_answers hs _ _) f)
  | chRx c b now => exact admitted_ne_fault (ofFault_ne_fault (rxByte_answers hs b now) f)
  | parserConsume c b =>
    obtain ⟨o, p, hc⟩ := consume_ok (c := c) (b := b) (hs.parser c)
    refine admitted_ne_fault ?_
    rw [hc]
    exact nofun
  | orchTick | chTick | sendCommand => exact admitted_ne_fault (ofRefusal_ne_fault _ f)
  | parserReset => exact admitted_ne_fault nofun
  | init k0 k1 => exact exec_init_ne_fault k0 k1 f
  | buildFrame | checksum => exact nofun

end NoFault

/-! ## After INIT every input has a step (R84, R173) -/

section Answers
variable {s : State} {c : Chan} {now : Nat}

theorem exec_chRx_answers (hs : s.Inv) (hi : s.initialized = true) (b : Byte) : ∃ t, exec (.chRx c b now) s = .next t := by
  obtain ⟨t, ht⟩ := rxByte_answers (c := c) hs b now
  exact ⟨t, (admitted_of hi _).trans (ofFault_next.2 ht)⟩

theorem exec_frameRow_answers (hs : s.Inv) (hi : s.initialized = true) (cmd : Byte) (f : WireFrame) :
    ∃ t, exec (frameRow cmd c now f) s = .next t := by
  obtain ⟨t, ht⟩ := rxBytes_answers (c := c) hs now (wireBytes cmd f)
  rw [exec_frameRow, admitted_of hi]
  exact ⟨t, ofFault_next.2 ht⟩

theorem exec_parserConsume_answers (hs : s.Inv) (hi : s.initialized = true) (b : Byte) :
    ∃ t, exec (.parserConsume c b) s = .next t := by
  obtain ⟨o, p, hc⟩ := consume_ok (c := c) (b := b) (hs.parser c)
  rw [exec, execParserConsume, admitted_of hi, hc]
  exact ⟨_, rfl⟩

theorem exec_orchTick_answers (hi : s.initialized = true) {a0 a1 : Option SendResult} (hfit0 : AnswerFits s.ch0 now a0)
    (hfit1 : AnswerFits s.ch1 now a1) : ∃ t, exec (.orchTick now a0 a1) s = .next t :=
  ⟨_, (admitted_of hi _).trans (ofRefusal_next.2 (tickBoth_ok_iff.2 ⟨⟨hfit0, hfit1⟩, rfl⟩))⟩

/-- A command with its answer is sent, and one without, whose arguments are then wrong, returns the reason (R84, R164). -/
theorem exec_sendCommand_answers (hi : s.initialized = true) {addr : Nat} {cmd : Byte} {payload : List Byte} {a : Option SendResult}
    (hfit : a ≠ none ↔ (1 ≤ addr ∧ addr ≤ 32) ∧ payload.length ≤ 22) :
    ∃ t, exec (.sendCommand c addr cmd payload a) s = .next t := by
  rw [← validate_txBuf_eq_none_iff] at hfit
  cases a with
  | some x => exact ⟨_, exec_sendCommand_valid hi (hfit.1 nofun) x⟩
  | none =>
    obtain ⟨r, hr⟩ := Option.ne_none_iff_exists'.1 fun h => hfit.2 h rfl
    exact ⟨_, exec_sendCommand_invalid hi hr⟩

end Answers

/-- Settles O52: the parser answers under the invariant, which every received byte keeps, and a fitting answer is not refused. -/
theorem noInputStopsTheBlock : Obligations.NoInputStopsTheBlock := by
  intro s hs
  refine ⟨exec_ne_fault hs, fun hi => ?_⟩
  exact ⟨fun _ b _ => exec_chRx_answers hs hi b, fun _ b => exec_parserConsume_answers hs hi b,
    fun _ _ _ hfit => ⟨_, exec_chTick hi hfit⟩, fun cmd _ _ f => exec_frameRow_answers hs hi cmd f,
    fun _ _ _ => exec_orchTick_answers hi, fun _ _ _ _ _ => exec_sendCommand_answers hi, fun _ => ⟨_, admitted_of hi _⟩⟩

end Sys2Proof.Machine
end

section
/-! Reset and hazards (70_reset_and_hazards.md): the first tick after INIT (O42). -/

namespace Sys2Proof.Machine

open Sys2Proof.Spec

/-- A tick whose poll is due has no step without an answer, and with one it attempts the poll (R84, R132, R133). -/
theorem exec_chTick_due {c : Chan} {now : Nat} {s : State} (hi : s.initialized = true) (hd : Due (s.ch c) now) :
    exec (.chTick c now none) s = .refused (.answerMissing c) ∧
      ∀ r, ∃ u, exec (.chTick c now (some r)) s = .next u ∧ u.sends = s.sends ++ [⟨c, poll (s.cfg c), r⟩] :=
  ⟨(answersMustFitTheSend c s hi).1 now hd, fun _ => ⟨_, exec_chTick hi ⟨fun _ => hd, fun _ => nofun⟩, rfl⟩⟩

/-- INIT leaves a poll deadline of 0, so the poll is due at every time (R46, R202). -/
theorem due_initialRuntime (now : Nat) : Due initialRuntime now := ⟨rfl, Nat.zero_le now⟩

/-- Settles O42: INIT leaves both channels with a poll that is due. -/
theorem firstTickAttemptsThePoll : Obligations.FirstTickAttemptsThePoll := by
  intro k0 k1 s hi ha0 hg0 ha1 hg1
  refine ⟨_, initSetsEveryField k0 k1 s hi ha0 hg0 ha1 hg1, fun c now => ?_⟩
  cases c with
  | ch0 => exact exec_chTick_due rfl (due_initialRuntime now)
  | ch1 => exact exec_chTick_due rfl (due_initialRuntime now)

end Sys2Proof.Machine
end
